-- ==== Sys2Proof/Word.lean ====
section
/-! DEFINITION. The machine's one datum: the byte (00_scope.md R10). -/

namespace Sys2Proof

/-- A byte, 0..255: the width of a register, of a memory cell and of an address (00_scope.md R7, R10). -/
abbrev Byte := BitVec 8

end Sys2Proof
end

