-- ==== Sys2Proof/Config.lean ====
section
/-! DEFINITION. The configuration of 00_scope.md R8 (its default values stand in Decode.lean) and the free value
of the transient latches. -/

namespace Sys2Proof

/-- The names of the 20 rows of 30_encoding.md R74, which index the `OPC_<mnemonic>` parameters. -/
inductive Mnemonic where
  | hlt | ret | push | pop | prn | call | jmp | jeq | jne | not
  | ldi | add | mul | mod | cmp | and | or | xor | shl | shr
  deriving DecidableEq, Repr

/-- The `OPC_<mnemonic>` parameters: one opcode byte for each instruction (00_scope.md R8, 30_encoding.md R74). -/
structure OpcodeMap where
  hlt : Byte
  ret : Byte
  push : Byte
  pop : Byte
  prn : Byte
  call : Byte
  jmp : Byte
  jeq : Byte
  jne : Byte
  not : Byte
  ldi : Byte
  add : Byte
  mul : Byte
  mod : Byte
  cmp : Byte
  and : Byte
  or : Byte
  xor : Byte
  shl : Byte
  shr : Byte
  deriving DecidableEq, Repr

/-- The `ALU_OVERFLOW` parameter (41_alu.md R111). -/
inductive AluOverflow where
  | wrap
  | fault
  deriving DecidableEq, Repr

/-- The configuration: fixed while the core runs (00_scope.md R8, 10_state.md R20).
A model takes each parameter as an argument; here they ride in `State.cfg` (log entry 1). -/
structure Config where
  /-- `SP_RESET` -/
  spReset : Byte
  /-- `ALU_OVERFLOW` -/
  aluOverflow : AluOverflow
  /-- `EXT_ALU_DISPATCH` (00_scope.md R9) -/
  extAluDispatch : Bool
  /-- `OPC_<mnemonic>` -/
  opcodes : OpcodeMap
  deriving DecidableEq, Repr

/-- FREE VALUE: the bytes that IR, MAR and MDR hold between steps, which the spec leaves unspecified
(10_state.md R32, 93_implementation_defined.md U12). Applied to `State.draws` (log entry 4). -/
opaque Config.freeByte : Nat → Byte

end Sys2Proof
end

