-- ==== Sys2Proof/Syntax.lean ====
section
/-! DEFINITION. The instructions: one constructor per row of the opcode table (30_encoding.md R71, R74).
A register operand is the WHOLE operand byte, not masked (R73): indices 8..255 are caught at execution (R94). -/

namespace Sys2Proof

/-- The 20 instructions; `a` and `b` are register-index bytes, `imm` is LDI's immediate byte (30_encoding.md R71). -/
inductive Instr where
  | hlt
  | ret
  | push (a : Byte)
  | pop (a : Byte)
  | prn (a : Byte)
  | call (a : Byte)
  | jmp (a : Byte)
  | jeq (a : Byte)
  | jne (a : Byte)
  | not (a : Byte)
  | ldi (a imm : Byte)
  | add (a b : Byte)
  | mul (a b : Byte)
  | mod (a b : Byte)
  | cmp (a b : Byte)
  | and (a b : Byte)
  | or (a b : Byte)
  | xor (a b : Byte)
  | shl (a b : Byte)
  | shr (a b : Byte)
  deriving DecidableEq, Repr

end Sys2Proof
end

