-- ==== Sys2Proof/Decode.lean ====
section
/-! DEFINITION. The opcode table, its default values, the decoder, and after it the encoder (30_encoding.md). -/

namespace Sys2Proof

/-- The rows of 30_encoding.md R74, in the table's order. -/
def Mnemonic.all : List Mnemonic :=
  [.hlt, .ret, .push, .pop, .prn, .call, .jmp, .jeq, .jne, .not,
   .ldi, .add, .mul, .mod, .cmp, .and, .or, .xor, .shl, .shr]

/-- The four formats of 30_encoding.md R71. -/
inductive Format where
  | f0
  | f1r
  | f2rr
  | f2ri
  deriving DecidableEq, Repr

/-- The format column of 30_encoding.md R74. -/
def Mnemonic.format : Mnemonic → Format
  | .hlt | .ret => .f0
  | .push | .pop | .prn | .call | .jmp | .jeq | .jne | .not => .f1r
  | .ldi => .f2ri
  | .add | .mul | .mod | .cmp | .and | .or | .xor | .shl | .shr => .f2rr

/-- How many operand bytes a format has (30_encoding.md R71). -/
def Format.operandCount : Format → Nat
  | .f0 => 0
  | .f1r => 1
  | .f2rr | .f2ri => 2

/-- An instruction's length: operand count + 1 (30_encoding.md R70). -/
def Mnemonic.length (m : Mnemonic) : Nat := m.format.operandCount + 1

/-- The rows dispatched only when `EXT_ALU_DISPATCH` is true (00_scope.md R9). -/
def Mnemonic.isExt : Mnemonic → Bool
  | .and | .or | .xor | .not | .shl | .shr | .mod => true
  | .hlt | .ret | .push | .pop | .prn | .call | .jmp | .jeq | .jne | .ldi | .add | .mul | .cmp => false

/-- The parameter `OPC_<m>` (00_scope.md R8). -/
def OpcodeMap.get (o : OpcodeMap) : Mnemonic → Byte
  | .hlt => o.hlt
  | .ret => o.ret
  | .push => o.push
  | .pop => o.pop
  | .prn => o.prn
  | .call => o.call
  | .jmp => o.jmp
  | .jeq => o.jeq
  | .jne => o.jne
  | .not => o.not
  | .ldi => o.ldi
  | .add => o.add
  | .mul => o.mul
  | .mod => o.mod
  | .cmp => o.cmp
  | .and => o.and
  | .or => o.or
  | .xor => o.xor
  | .shl => o.shl
  | .shr => o.shr

/-- The default opcode values of 30_encoding.md R74. HLT, LDI, MUL and PRN come from the source; the others are
PRESUMED by the spec from the LS-8 machine (log entry 2). -/
def OpcodeMap.defaults : OpcodeMap where
  hlt := 0x01
  ret := 0x11
  push := 0x45
  pop := 0x46
  prn := 0x47
  call := 0x50
  jmp := 0x54
  jeq := 0x55
  jne := 0x56
  not := 0x69
  ldi := 0x82
  add := 0xA0
  mul := 0xA2
  mod := 0xA4
  cmp := 0xA7
  and := 0xA8
  or := 0xAA
  xor := 0xAB
  shl := 0xAC
  shr := 0xAD

/-- The default parameters of 00_scope.md R8 (log entry 11). -/
def Config.defaults : Config where
  spReset := 0xFF
  aluOverflow := .wrap
  extAluDispatch := false
  opcodes := .defaults

/-- The defaults with `EXT_ALU_DISPATCH = true`: the configuration in which all 20 rows are dispatched (00_scope.md R9). -/
def Config.allRows : Config := { Config.defaults with extAluDispatch := true }

/-- Whether a row takes part in decoding: an EXT row only when `EXT_ALU_DISPATCH` is true (30_encoding.md R76). -/
def Config.dispatches (cfg : Config) (m : Mnemonic) : Bool := !m.isExt || cfg.extAluDispatch

/-- `Decode(op)`: the row whose value equals the whole byte, or none (30_encoding.md R76). -/
def decodeOpcode (cfg : Config) (op : Byte) : Option Mnemonic :=
  Mnemonic.all.find? fun m => cfg.dispatches m && cfg.opcodes.get m == op

/-- The instruction of a row with its operand bytes; a row with fewer operands ignores the rest (30_encoding.md R71). -/
def Mnemonic.build (m : Mnemonic) (a b : Byte) : Instr :=
  match m with
  | .hlt => .hlt
  | .ret => .ret
  | .push => .push a
  | .pop => .pop a
  | .prn => .prn a
  | .call => .call a
  | .jmp => .jmp a
  | .jeq => .jeq a
  | .jne => .jne a
  | .not => .not a
  | .ldi => .ldi a b
  | .add => .add a b
  | .mul => .mul a b
  | .mod => .mod a b
  | .cmp => .cmp a b
  | .and => .and a b
  | .or => .or a b
  | .xor => .xor a b
  | .shl => .shl a b
  | .shr => .shr a b

/-- Why a byte sequence is no instruction. -/
inductive DecodeError where
  /-- There is no opcode byte. -/
  | empty
  /-- No row has this opcode byte (30_encoding.md R77). -/
  | noHandler (op : Byte)
  /-- The opcode's operand bytes are not all there. -/
  | truncated (op : Byte)
  deriving DecidableEq, Repr

/-- The decoder on bytes at ascending addresses: the instruction and the bytes after it (30_encoding.md R71, R76, R79). -/
def decode (cfg : Config) : List Byte → Except DecodeError (Instr × List Byte)
  | [] => .error .empty
  | op :: rest =>
    match decodeOpcode cfg op with
    | none => .error (.noHandler op)
    | some m =>
      match m.format.operandCount, rest with
      | 0, rest => .ok (m.build 0 0, rest)
      | 1, a :: rest => .ok (m.build a 0, rest)
      | 2, a :: b :: rest => .ok (m.build a b, rest)
      | _, _ => .error (.truncated op)

/-- An instruction's row. -/
def Instr.mnemonic : Instr → Mnemonic
  | .hlt => .hlt
  | .ret => .ret
  | .push _ => .push
  | .pop _ => .pop
  | .prn _ => .prn
  | .call _ => .call
  | .jmp _ => .jmp
  | .jeq _ => .jeq
  | .jne _ => .jne
  | .not _ => .not
  | .ldi _ _ => .ldi
  | .add _ _ => .add
  | .mul _ _ => .mul
  | .mod _ _ => .mod
  | .cmp _ _ => .cmp
  | .and _ _ => .and
  | .or _ _ => .or
  | .xor _ _ => .xor
  | .shl _ _ => .shl
  | .shr _ _ => .shr

/-- An instruction's operand bytes, in order (30_encoding.md R71). -/
def Instr.operands : Instr → List Byte
  | .hlt | .ret => []
  | .push a | .pop a | .prn a | .call a | .jmp a | .jeq a | .jne a | .not a => [a]
  | .ldi a imm => [a, imm]
  | .add a b | .mul a b | .mod a b | .cmp a b | .and a b | .or a b | .xor a b | .shl a b | .shr a b => [a, b]

/-- The operand bytes that are register indices, in the order they are checked (30_encoding.md R71, 40_dispatch.md R94). -/
def Instr.registerOperands : Instr → List Byte
  | .hlt | .ret => []
  | .push a | .pop a | .prn a | .call a | .jmp a | .jeq a | .jne a | .not a => [a]
  | .ldi a _ => [a]
  | .add a b | .mul a b | .mod a b | .cmp a b | .and a b | .or a b | .xor a b | .shl a b | .shr a b => [a, b]

/-- The encoder: the opcode byte, then the operand bytes (30_encoding.md R71, R80). -/
def encode (cfg : Config) (i : Instr) : List Byte := cfg.opcodes.get i.mnemonic :: i.operands

/-- The image of an assembled program: its instructions' bytes in order (30_encoding.md R80, R82). -/
def assemble (cfg : Config) (program : List Instr) : List Byte := program.flatMap (encode cfg)

/-- The mnemonic column of 30_encoding.md R74. -/
def Mnemonic.name : Mnemonic → String
  | .hlt => "HLT"
  | .ret => "RET"
  | .push => "PUSH"
  | .pop => "POP"
  | .prn => "PRN"
  | .call => "CALL"
  | .jmp => "JMP"
  | .jeq => "JEQ"
  | .jne => "JNE"
  | .not => "NOT"
  | .ldi => "LDI"
  | .add => "ADD"
  | .mul => "MUL"
  | .mod => "MOD"
  | .cmp => "CMP"
  | .and => "AND"
  | .or => "OR"
  | .xor => "XOR"
  | .shl => "SHL"
  | .shr => "SHR"

/-- A register's name in assembly (30_encoding.md R80). -/
def registerName (i : Byte) : String := "R" ++ toString i.toNat

/-- An instruction as 30_encoding.md R80 writes it: `MNEMONIC`, `MNEMONIC Ra`, `MNEMONIC Ra, Rb` or `LDI Ra, imm`. -/
def Instr.assembly (i : Instr) : String :=
  match i.mnemonic.format, i.operands with
  | .f1r, [a] => i.mnemonic.name ++ " " ++ registerName a
  | .f2rr, [a, b] => i.mnemonic.name ++ " " ++ registerName a ++ ", " ++ registerName b
  | .f2ri, [a, imm] => i.mnemonic.name ++ " " ++ registerName a ++ ", " ++ toString imm.toNat
  | _, _ => i.mnemonic.name

/-- The three bytes of an instruction numbered as the opcode table numbers its bits: byte k is bits 8k+7..8k,
and every bit from nbits up is 0. Three is the longest instruction (30_encoding.md R70). -/
def tableBytes (nbits w : Nat) : List Byte :=
  let w := w % 2 ^ nbits
  [BitVec.ofNat 8 w, BitVec.ofNat 8 (w / 256), BitVec.ofNat 8 (w / 65536)]

/-- What the decoder reads from a word of the opcode table. The table holds all 20 rows, so it is read under the
configuration that dispatches all of them (log entry 12). -/
def decodeTableWord (nbits w : Nat) : Option Instr :=
  match decode Config.allRows (tableBytes nbits w) with
  | .ok (i, _) => some i
  | .error _ => none

end Sys2Proof
end

