-- ==== Sys2Proof/Machine/Memory.lean ====
section
/-! DEFINITION. Memory as plain data: the cells that hold a value, by rising address (10_state.md R31, 20_memory.md R50).
An address that is not listed holds NO VALUE (log entry 6). -/

namespace Sys2Proof.Machine

/-- The listed cells of the 256-byte memory. -/
abbrev Memory := List Host.Cell

/-- The number of cells, `MEM_SIZE` (00_scope.md R7). -/
def memSize : Nat := 256

/-- What the cell at an address holds: a byte, or no value. -/
def Memory.read : Memory → Nat → Option Byte
  | [], _ => none
  | (k, v) :: rest, addr => if addr = k then some v else Memory.read rest addr

/-- The memory after the cell at `addr` has been given the byte `v`, in canonical form. -/
def Memory.write : Memory → Nat → Byte → Memory
  | [], addr, v => [(addr, v)]
  | (k, w) :: rest, addr, v =>
    if addr < k then (addr, v) :: (k, w) :: rest
    else if addr = k then (addr, v) :: rest
    else (k, w) :: Memory.write rest addr v

/-- The memory after the bytes have been written at `addr`, `addr + 1`, … (70_reset_and_hazards.md R232). -/
def Memory.writeBytes : Memory → Nat → List Byte → Memory
  | m, _, [] => m
  | m, addr, v :: rest => Memory.writeBytes (m.write addr v) (addr + 1) rest

/-- Every listed address is at least `low`, addresses rise strictly, and all lie below `memSize`. -/
def Memory.risingFrom (low : Nat) : Memory → Bool
  | [] => true
  | (k, _) :: rest => decide (low ≤ k) && decide (k < memSize) && Memory.risingFrom (k + 1) rest

/-- The canonical form: strictly rising addresses, all of them 0..255. -/
def Memory.wf (m : Memory) : Bool := m.risingFrom 0

end Sys2Proof.Machine
end

