-- ==== Sys2Proof/Machine/Reset.lean ====
section
/-! DEFINITION. The reset values of 10_state.md R36, which `State.reset` is made of. -/

namespace Sys2Proof.Machine

/-- R0..R6 are 0 and R7 is `SP_RESET` (10_state.md R36, 90_conflicts.md C2). -/
def resetRegs (cfg : Config) : Vector Byte 8 := #v[0, 0, 0, 0, 0, 0, 0, cfg.spReset]

/-- The reset entry point is address 0 (70_reset_and_hazards.md R231). -/
def resetPc : Byte := 0

/-- What IR, MAR and MDR hold at reset. DESIGN CHOICE: the spec calls it unspecified (10_state.md R36; log entry 3). -/
def resetLatch : Byte := 0

end Sys2Proof.Machine
end

