-- ==== Sys2Proof/Machine/State.lean ====
section
/-! DEFINITION. The state of 10_state.md R20 as plain data, its reset value, and the reasons a step stops. -/

namespace Sys2Proof.Machine

/-- The engine state (10_state.md R30). -/
inductive Engine where
  | running
  | halted
  | faulted
  deriving DecidableEq, Repr

/-- The four kinds of `OutOfBounds` (60_exceptions.md R201, R205). -/
inductive BoundsKind where
  | addr
  | pc
  | sp
  | reg
  deriving DecidableEq, Repr

/-- The causes of 60_exceptions.md R201, each with the detail it records. -/
inductive Cause where
  /-- The fetched opcode has no handler (R202). -/
  | invalidOpcode (op : Byte)
  /-- The ALU's operation select is outside its set (R203); unreachable from any instruction. -/
  | aluOpFault (select : Nat)
  /-- MOD with divisor 0: the register indices a and b (R204). -/
  | arithmeticFault (a b : Byte)
  /-- An address, next pc, SP or register index out of range: the kind and the value (R205). -/
  | outOfBounds (kind : BoundsKind) (v : Int)
  /-- A read of a memory cell that holds no value: its address (R208). -/
  | uninitializedRead (addr : Nat)
  /-- FL read before any CMP (R209). -/
  | unsetFlags
  /-- An ALU result outside 0..255 under `ALU_OVERFLOW = fault`: the exact result (R210). -/
  | aluOverflow (v : Int)
  deriving DecidableEq, Repr

/-- The fault record (10_state.md R34): the cause with its detail, the pc of the faulting instruction, and its
opcode byte, or none when the opcode fetch itself faulted. -/
structure FaultRecord where
  cause : Cause
  pc : Byte
  opcode : Option Byte
  deriving DecidableEq, Repr

/-- Why no step exists. A fatal condition of 60_exceptions.md is not among these: it is a next state (log entry 7). -/
inductive Fault where
  /-- Raised by `step` when the engine is Halted: Halted is terminal, no step is enabled (10_state.md R30). Safe. -/
  | engineHalted
  /-- Raised by `step` when the engine is Faulted: Faulted is terminal, no step is enabled (60_exceptions.md R207). Safe. -/
  | engineFaulted
  deriving DecidableEq, Repr

/-- What the model refuses, by name. -/
inductive Refusal where
  /-- An instruction without a meaning yet; no arm of `exec` uses it. Safe. -/
  | notModelled (mnemonic : String)
  /-- Raised by `load`, never by a step: the image has more than 256 bytes (70_reset_and_hazards.md R232). Safe. -/
  | imageTooLong (bytes : Nat)
  /-- Raised by `load`, never by a step: the core is not as reset left it (70_reset_and_hazards.md R232). Safe. -/
  | loadAfterStart
  /-- Raised by `inspect`, never by a step: the host reads state only after the run stops (70_reset_and_hazards.md R236). Safe. -/
  | inspectWhileRunning
  deriving DecidableEq, Repr

/-- The state vector of 10_state.md R20. -/
structure State where
  /-- x[0]..x[7]; x[7] is the stack pointer (R21, R22). -/
  regs : Vector Byte 8
  /-- The program counter (R26). -/
  pc : Byte
  /-- FL, an 8-bit register or no value: the spec's own type for it (R20, R27; log entry 5). -/
  fl : Option Byte
  /-- The memory cells that hold a byte (R31). -/
  mem : Memory
  /-- Running, Halted or Faulted (R30). -/
  engine : Engine
  /-- The output history, oldest first (R33). -/
  out : List Byte
  /-- The fault record, or none (R34). -/
  fault : Option FaultRecord
  /-- The instruction register, transient (R32). -/
  ir : Byte
  /-- The memory address latch, transient (R32). -/
  mar : Byte
  /-- The memory data latch, transient (R32). -/
  mdr : Byte
  /-- The model's own field: the configuration, which no step changes (R20; log entry 1). -/
  cfg : Config
  /-- The model's own field: how many free values have been drawn (log entry 4). -/
  draws : Nat
  deriving DecidableEq, Repr

/-- The state after reset under a configuration (10_state.md R36, 70_reset_and_hazards.md R230). -/
def State.resetWith (cfg : Config) : State where
  regs := resetRegs cfg
  pc := resetPc
  fl := none
  mem := []
  engine := .running
  out := []
  fault := none
  ir := resetLatch
  mar := resetLatch
  mdr := resetLatch
  cfg := cfg
  draws := 0

/-- The state after reset under the spec's default configuration (00_scope.md R8). -/
def State.reset : State := State.resetWith Config.defaults

end Sys2Proof.Machine
end

