-- ==== Sys2Proof/Machine/Ops.lean ====
section
/-! DEFINITION. The named operations on registers, memory, pc and engine (00_scope.md R11), and taking a fault. -/

namespace Sys2Proof.Machine

/-- `x[i]` (00_scope.md R11). -/
def State.reg (s : State) (i : Fin 8) : Byte := s.regs.get i

/-- `x[i] <- v` (00_scope.md R11). -/
def State.setReg (s : State) (i : Fin 8) (v : Byte) : State := { s with regs := s.regs.set i.val v i.isLt }

/-- The index of the stack pointer, `SP_INDEX` (00_scope.md R7). -/
def spIndex : Fin 8 := 7

/-- `SP`, another name of x[7] (10_state.md R22). -/
def State.sp (s : State) : Byte := s.reg spIndex

/-- `x[7] <- v` (10_state.md R22). -/
def State.setSp (s : State) (v : Byte) : State := s.setReg spIndex v

/-- `pc <- target` (00_scope.md R11). -/
def State.setPc (s : State) (target : Byte) : State := { s with pc := target }

/-- `FL <- v` (00_scope.md R11). -/
def State.setFl (s : State) (v : Byte) : State := { s with fl := some v }

/-- `emit(v)`: the output history grows by v (42_ldi_prn.md R152, R153). -/
def State.emit (s : State) (v : Byte) : State := { s with out := s.out ++ [v] }

/-- `running <- false`: enter Halted (44_branch_halt.md R186). -/
def State.halt (s : State) : State := { s with engine := .halted }

/-- The opcode byte enters IR (10_state.md R32, 40_dispatch.md R91). -/
def State.setIr (s : State) (op : Byte) : State := { s with ir := op }

/-- `MAR <- addr; MDR <- v` (20_memory.md R53, R54). -/
def State.setLatches (s : State) (addr v : Byte) : State := { s with mar := addr, mdr := v }

/-- The cell at `addr` now holds `v` (20_memory.md R54). -/
def State.setCell (s : State) (addr : Nat) (v : Byte) : State := { s with mem := s.mem.write addr v }

/-- What the cell at an address holds, without an access. -/
def State.cell (s : State) (addr : Nat) : Option Byte := s.mem.read addr

/-- `MemRead(addr, 1)` (20_memory.md R53). The byte, and the state in which the latches hold the access. -/
def State.memRead (s : State) (addr : Nat) : Except Cause (Byte × State) :=
  if addr > 255 then .error (.outOfBounds .addr addr)
  else match s.cell addr with
    | none => .error (.uninitializedRead addr)
    | some v => .ok (v, s.setLatches (BitVec.ofNat 8 addr) v)

/-- `MemWrite(addr, 1, v)` (20_memory.md R54). -/
def State.memWrite (s : State) (addr : Nat) (v : Byte) : Except Cause State :=
  if addr > 255 then .error (.outOfBounds .addr addr)
  else .ok ((s.setLatches (BitVec.ofNat 8 addr) v).setCell addr v)

/-- `SeqPc(len)`: the pc never wraps (40_dispatch.md R97). -/
def State.seqPc (s : State) (len : Nat) : Except Cause Byte :=
  if s.pc.toNat + len > 255 then .error (.outOfBounds .pc (s.pc.toNat + len : Nat))
  else .ok (BitVec.ofNat 8 (s.pc.toNat + len))

/-- `SpDown(s)`: SP does not wrap from 0 (43_stack_call.md R161). -/
def spDown (sp : Byte) : Except Cause Byte :=
  if sp = 0 then .error (.outOfBounds .sp (-1)) else .ok (sp - 1)

/-- `SpUp(s)`: SP does not wrap from 255 (43_stack_call.md R162). -/
def spUp (sp : Byte) : Except Cause Byte :=
  if sp = 255 then .error (.outOfBounds .sp 256) else .ok (sp + 1)

/-- The code of a cause (60_exceptions.md R201). -/
def Cause.code : Cause → Nat
  | .invalidOpcode _ => 1
  | .aluOpFault _ => 2
  | .arithmeticFault _ _ => 3
  | .outOfBounds _ _ => 4
  | .uninitializedRead _ => 5
  | .unsetFlags => 6
  | .aluOverflow _ => 7

/-- The name of a cause (60_exceptions.md R201). -/
def Cause.name : Cause → String
  | .invalidOpcode _ => "InvalidOpcode"
  | .aluOpFault _ => "AluOpFault"
  | .arithmeticFault _ _ => "ArithmeticFault"
  | .outOfBounds _ _ => "OutOfBounds"
  | .uninitializedRead _ => "UninitializedRead"
  | .unsetFlags => "UnsetFlags"
  | .aluOverflow _ => "AluOverflow"

/-- TAKING A FAULT, `raise F(info)`: the record is written and the engine becomes Faulted; nothing else changes, since
every instruction checks before it commits (60_exceptions.md R206, R212; 00_scope.md R12). The hardware has no return
from a fault (R213): only `hostReset` leaves Faulted. -/
def State.raise (s : State) (c : Cause) (opcode : Option Byte) : State :=
  { s with fault := some { cause := c, pc := s.pc, opcode := opcode }, engine := .faulted }

/-- How an instruction ends: the state it commits, or the fault of its first failing check, taken in the state before
the instruction, with the instruction's own opcode byte in the record (10_state.md R34, 60_exceptions.md R206, R211). -/
def State.conclude (s : State) (m : Mnemonic) : Except Cause State → Host.Outcome State Fault Refusal
  | .ok t => .next t
  | .error c => .next (s.raise c (some (s.cfg.opcodes.get m)))

/-- Between steps IR, MAR and MDR hold free values (10_state.md R32, 93_implementation_defined.md U12; log entry 4). -/
def State.settle (s : State) : State :=
  { s with
    ir := Config.freeByte s.draws
    mar := Config.freeByte (s.draws + 1)
    mdr := Config.freeByte (s.draws + 2)
    draws := s.draws + 3 }

end Sys2Proof.Machine
end

