-- ==== Sys2Proof/Machine/Flags.lean ====
section
/-! DEFINITION. The flag register FL (10_state.md R27, R28). -/

namespace Sys2Proof.Machine

/-- What CMP writes: L in bit 2, G in bit 1, E in bit 0, bits 7:3 zero; the compare is unsigned (41_alu.md R112, R122). -/
def compareFlags (a b : Byte) : Byte :=
  (if a.toNat < b.toNat then 0b100#8 else 0#8) ||| (if a.toNat > b.toNat then 0b010#8 else 0#8)
    ||| (if a = b then 0b001#8 else 0#8)

/-- `FL.E`, bit 0, tested as a bit (10_state.md R28, 44_branch_halt.md R185). -/
def flagE (fl : Byte) : Bool := fl.getLsbD 0

/-- `FL.G`, bit 1 (10_state.md R28). No instruction reads it. -/
def flagG (fl : Byte) : Bool := fl.getLsbD 1

/-- `FL.L`, bit 2 (10_state.md R28). No instruction reads it. -/
def flagL (fl : Byte) : Bool := fl.getLsbD 2

/-- Reading FL for a conditional branch: a fault while it holds no value (44_branch_halt.md R182, 60_exceptions.md R209). -/
def State.readFl (s : State) : Except Cause Byte :=
  match s.fl with
  | none => .error .unsetFlags
  | some v => .ok v

end Sys2Proof.Machine
end

