-- ==== Sys2Proof/Machine/Operands.lean ====
section
/-! DEFINITION. Operands: fetching their bytes (40_dispatch.md R93) and checking register indices (R94). -/

namespace Sys2Proof.Machine

/-- `Op(k) = MemRead(pc + k, 1)` (40_dispatch.md R93). -/
def State.opByte (s : State) (k : Nat) : Except Cause (Byte × State) := s.memRead (s.pc.toNat + k)

/-- Op(1), then Op(2) (40_dispatch.md R93). -/
def State.fetchTwo (s : State) : Except Cause (Byte × Byte × State) :=
  match s.opByte 1 with
  | .error c => .error c
  | .ok (a, s1) =>
    match s1.opByte 2 with
    | .error c => .error c
    | .ok (b, s2) => .ok (a, b, s2)

/-- The operand bytes of a row, Op(1) before Op(2) and only as many as its format has (40_dispatch.md R93).
A byte the format does not have is given as 0, and `Mnemonic.build` ignores it. -/
def State.fetchOperands (s : State) (m : Mnemonic) : Except Cause (Byte × Byte × State) :=
  match m.format with
  | .f0 => .ok (0, 0, s)
  | .f1r =>
    match s.opByte 1 with
    | .error c => .error c
    | .ok (a, s1) => .ok (a, 0, s1)
  | .f2rr | .f2ri => s.fetchTwo

/-- `CheckReg(i)`: the register an index byte names, unmasked (40_dispatch.md R94, 30_encoding.md R73). -/
def checkReg (i : Byte) : Except Cause (Fin 8) :=
  if h : i.toNat < 8 then .ok ⟨i.toNat, h⟩ else .error (.outOfBounds .reg i.toNat)

/-- Two register operands, `a` checked before `b` (40_dispatch.md R94). -/
def checkRegs (a b : Byte) : Except Cause (Fin 8 × Fin 8) :=
  match checkReg a with
  | .error c => .error c
  | .ok ra =>
    match checkReg b with
    | .error c => .error c
    | .ok rb => .ok (ra, rb)

end Sys2Proof.Machine
end

