-- ==== Sys2Proof/Machine/Alu.lean ====
section
/-! DEFINITION. The combinational ALU (41_alu.md R110 to R113) and the template of the instructions that use it. -/

namespace Sys2Proof.Machine

/-- The ALU's operation select: the ten operations of 41_alu.md R112, or a value outside the set (R113). -/
inductive AluSelect where
  | add
  | mul
  | cmp
  | and
  | or
  | xor
  | not
  | shl
  | shr
  | mod
  | outside (select : Nat)
  deriving DecidableEq, Repr

/-- The ALU's output: a result byte for x[a], or a value for FL (41_alu.md R110). -/
inductive AluOutput where
  | result (v : Byte)
  | flags (v : Byte)
  deriving DecidableEq, Repr

/-- `Fit8(v)` (41_alu.md R111). -/
def fit8 (mode : AluOverflow) (v : Int) : Except Cause Byte :=
  if 0 ≤ v ∧ v ≤ 255 then .ok (BitVec.ofInt 8 v)
  else match mode with
    | .wrap => .ok (BitVec.ofInt 8 (v % 256))
    | .fault => .error (.aluOverflow v)

/-- An ALU result through `Fit8`. -/
def fitResult (mode : AluOverflow) (v : Int) : Except Cause AluOutput :=
  match fit8 mode v with
  | .error c => .error c
  | .ok r => .ok (.result r)

/-- The ALU on the values `A = x[a]` and `B = x[b]`: the exact value on unbounded integers, then `Fit8`
(41_alu.md R111, R112). The indices `a` and `b` only name the operands in an `ArithmeticFault` (60_exceptions.md R204). -/
def alu (mode : AluOverflow) (select : AluSelect) (a b A B : Byte) : Except Cause AluOutput :=
  match select with
  | .add => fitResult mode (A.toNat + B.toNat : Nat)
  | .mul => fitResult mode (A.toNat * B.toNat : Nat)
  | .cmp => .ok (.flags (compareFlags A B))
  | .and => fitResult mode (A &&& B).toNat
  | .or => fitResult mode (A ||| B).toNat
  | .xor => fitResult mode (A ^^^ B).toNat
  | .not => fitResult mode (-(A.toNat : Int) - 1)
  | .shl => fitResult mode (A.toNat * 2 ^ B.toNat : Nat)
  | .shr => fitResult mode (A.toNat / 2 ^ B.toNat : Nat)
  | .mod => if B = 0 then .error (.arithmeticFault a b) else fitResult mode (A.toNat % B.toNat : Nat)
  | .outside n => .error (.aluOpFault n)

/-- The ALU's write-back: x[a], or FL and no register (41_alu.md R110). -/
def State.writeAlu (s : State) (a : Fin 8) : AluOutput → State
  | .result v => s.setReg a v
  | .flags v => s.setFl v

/-- The two-register ALU instructions (41_alu.md R120 to R125, R127 to R129): CheckReg(a), CheckReg(b), the ALU,
SeqPc(3), then the commit. -/
def State.aluTwo (s : State) (select : AluSelect) (a b : Byte) : Except Cause State :=
  match checkRegs a b with
  | .error c => .error c
  | .ok (ra, rb) =>
    match alu s.cfg.aluOverflow select a b (s.reg ra) (s.reg rb) with
    | .error c => .error c
    | .ok r =>
      match s.seqPc 3 with
      | .error c => .error c
      | .ok npc => .ok ((s.writeAlu ra r).setPc npc)

/-- The one-register ALU instruction NOT (41_alu.md R126): "unary; reg[b] ignored", so x[a] stands in for the second
input, which the operation does not read. -/
def State.aluOne (s : State) (select : AluSelect) (a : Byte) : Except Cause State :=
  match checkReg a with
  | .error c => .error c
  | .ok ra =>
    match alu s.cfg.aluOverflow select a a (s.reg ra) (s.reg ra) with
    | .error c => .error c
    | .ok r =>
      match s.seqPc 2 with
      | .error c => .error c
      | .ok npc => .ok ((s.writeAlu ra r).setPc npc)

end Sys2Proof.Machine
end

