-- ==== Sys2Proof/Machine/Arithmetic.lean ====
section
/-! DEFINITION. The ALU instructions: ADD, MUL and CMP, always dispatched, and AND, OR, XOR, NOT, SHL, SHR and MOD,
dispatched when `EXT_ALU_DISPATCH` is true (41_alu.md sections 3 and 4). -/

namespace Sys2Proof.Machine

/-- ADD: x[a] <- Fit8(x[a] + x[b]) (41_alu.md R120). -/
def execAdd (a b : Byte) (s : State) : Host.Outcome State Fault Refusal :=
  s.conclude .add (s.aluTwo .add a b)

/-- MUL: x[a] <- Fit8(x[a] * x[b]) (41_alu.md R121). -/
def execMul (a b : Byte) (s : State) : Host.Outcome State Fault Refusal :=
  s.conclude .mul (s.aluTwo .mul a b)

/-- CMP: FL <- the comparison of x[a] and x[b]; no register is written (41_alu.md R122). -/
def execCmp (a b : Byte) (s : State) : Host.Outcome State Fault Refusal :=
  s.conclude .cmp (s.aluTwo .cmp a b)

/-- AND: x[a] <- x[a] & x[b] (41_alu.md R123). -/
def execAnd (a b : Byte) (s : State) : Host.Outcome State Fault Refusal :=
  s.conclude .and (s.aluTwo .and a b)

/-- OR: x[a] <- x[a] | x[b] (41_alu.md R124). -/
def execOr (a b : Byte) (s : State) : Host.Outcome State Fault Refusal :=
  s.conclude .or (s.aluTwo .or a b)

/-- XOR: x[a] <- x[a] ^ x[b] (41_alu.md R125). -/
def execXor (a b : Byte) (s : State) : Host.Outcome State Fault Refusal :=
  s.conclude .xor (s.aluTwo .xor a b)

/-- NOT: x[a] <- Fit8(-x[a] - 1) (41_alu.md R126). -/
def execNot (a : Byte) (s : State) : Host.Outcome State Fault Refusal :=
  s.conclude .not (s.aluOne .not a)

/-- SHL: x[a] <- Fit8(x[a] * 2^x[b]); the amount is the whole byte (41_alu.md R127). -/
def execShl (a b : Byte) (s : State) : Host.Outcome State Fault Refusal :=
  s.conclude .shl (s.aluTwo .shl a b)

/-- SHR: x[a] <- floor(x[a] / 2^x[b]) (41_alu.md R128). -/
def execShr (a b : Byte) (s : State) : Host.Outcome State Fault Refusal :=
  s.conclude .shr (s.aluTwo .shr a b)

/-- MOD: x[a] <- x[a] mod x[b]; ArithmeticFault when x[b] = 0 (41_alu.md R129). -/
def execMod (a b : Byte) (s : State) : Host.Outcome State Fault Refusal :=
  s.conclude .mod (s.aluTwo .mod a b)

end Sys2Proof.Machine
end

