-- ==== Sys2Proof/Machine/Branch.lean ====
section
/-! DEFINITION. JMP, JEQ, JNE and HLT (44_branch_halt.md). -/

namespace Sys2Proof.Machine

/-- JMP's check and commit (44_branch_halt.md R181). -/
def State.jump (s : State) (a : Byte) : Except Cause State :=
  match checkReg a with
  | .error c => .error c
  | .ok ra => .ok (s.setPc (s.reg ra))

/-- JMP: PC = reg[a] (44_branch_halt.md R181). -/
def execJmp (a : Byte) (s : State) : Host.Outcome State Fault Refusal := s.conclude .jmp (s.jump a)

/-- A conditional branch, taken when FL.E is `wanted` (44_branch_halt.md R182 to R185): CheckReg, then FL, then SeqPc(2)
on the path not taken. -/
def State.branch (s : State) (wanted : Bool) (a : Byte) : Except Cause State :=
  match checkReg a with
  | .error c => .error c
  | .ok ra =>
    match s.readFl with
    | .error c => .error c
    | .ok fl =>
      if flagE fl = wanted then .ok (s.setPc (s.reg ra))
      else match s.seqPc 2 with
        | .error c => .error c
        | .ok npc => .ok (s.setPc npc)

/-- JEQ: if flags.equal: PC = reg[a]; else PC += 2 (44_branch_halt.md R182). -/
def execJeq (a : Byte) (s : State) : Host.Outcome State Fault Refusal := s.conclude .jeq (s.branch true a)

/-- JNE: if not flags.equal: PC = reg[a]; else PC += 2 (44_branch_halt.md R184). -/
def execJne (a : Byte) (s : State) : Host.Outcome State Fault Refusal := s.conclude .jne (s.branch false a)

/-- HLT: running = false; the pc keeps HLT's own address (44_branch_halt.md R186, 90_conflicts.md C10). -/
def execHlt (s : State) : Host.Outcome State Fault Refusal := s.conclude .hlt (.ok s.halt)

end Sys2Proof.Machine
end

