-- ==== Sys2Proof/Machine/LoadPrint.lean ====
section
/-! DEFINITION. LDI and PRN (42_ldi_prn.md). -/

namespace Sys2Proof.Machine

/-- LDI's checks and commit (42_ldi_prn.md R150). -/
def State.loadImmediate (s : State) (a imm : Byte) : Except Cause State :=
  match checkReg a with
  | .error c => .error c
  | .ok ra =>
    match s.seqPc 3 with
    | .error c => .error c
    | .ok npc => .ok ((s.setReg ra imm).setPc npc)

/-- LDI: x[a] <- imm (42_ldi_prn.md R150). -/
def execLdi (a imm : Byte) (s : State) : Host.Outcome State Fault Refusal := s.conclude .ldi (s.loadImmediate a imm)

/-- PRN's checks and commit (42_ldi_prn.md R152). -/
def State.print (s : State) (a : Byte) : Except Cause State :=
  match checkReg a with
  | .error c => .error c
  | .ok ra =>
    match s.seqPc 2 with
    | .error c => .error c
    | .ok npc => .ok ((s.emit (s.reg ra)).setPc npc)

/-- PRN: the output port carries x[a] (42_ldi_prn.md R152). -/
def execPrn (a : Byte) (s : State) : Host.Outcome State Fault Refusal := s.conclude .prn (s.print a)

end Sys2Proof.Machine
end

