-- ==== Sys2Proof/Machine/Stack.lean ====
section
/-! DEFINITION. PUSH, POP, CALL and RET over the stack in memory (43_stack_call.md). Statements take effect in the
order the spec writes them, which shows when the operand is R7 (92_eei_decisions.md D18; log entry 15). -/

namespace Sys2Proof.Machine

/-- x[a] as it stands after `sp -= 1` has made SP `sp` (43_stack_call.md R163, R165). -/
def State.regAfterDown (s : State) (sp : Byte) (a : Fin 8) : Byte := if a = spIndex then sp else s.reg a

/-- PUSH's checks and commit (43_stack_call.md R163). -/
def State.pushReg (s : State) (a : Byte) : Except Cause State :=
  match checkReg a with
  | .error c => .error c
  | .ok ra =>
    match spDown s.sp with
    | .error c => .error c
    | .ok sp =>
      match s.seqPc 2 with
      | .error c => .error c
      | .ok npc =>
        match (s.setSp sp).memWrite sp.toNat (s.regAfterDown sp ra) with
        | .error c => .error c
        | .ok t => .ok (t.setPc npc)

/-- PUSH: sp -= 1; memory[sp] = reg[a] (43_stack_call.md R163). -/
def execPush (a : Byte) (s : State) : Host.Outcome State Fault Refusal := s.conclude .push (s.pushReg a)

/-- POP's checks and commit (43_stack_call.md R164). -/
def State.popReg (s : State) (a : Byte) : Except Cause State :=
  match checkReg a with
  | .error c => .error c
  | .ok ra =>
    match s.memRead s.sp.toNat with
    | .error c => .error c
    | .ok (v, t) =>
      match spUp (if ra = spIndex then v else s.sp) with
      | .error c => .error c
      | .ok sp =>
        match s.seqPc 2 with
        | .error c => .error c
        | .ok npc => .ok (((t.setReg ra v).setSp sp).setPc npc)

/-- POP: reg[a] = memory[sp]; sp += 1 (43_stack_call.md R164). -/
def execPop (a : Byte) (s : State) : Host.Outcome State Fault Refusal := s.conclude .pop (s.popReg a)

/-- CALL's checks and commit (43_stack_call.md R165). The return address pc + 2 is checked as SeqPc(2) checks it. -/
def State.callReg (s : State) (a : Byte) : Except Cause State :=
  match checkReg a with
  | .error c => .error c
  | .ok ra =>
    match spDown s.sp with
    | .error c => .error c
    | .ok sp =>
      match s.seqPc 2 with
      | .error c => .error c
      | .ok returnAddress =>
        match (s.setSp sp).memWrite sp.toNat returnAddress with
        | .error c => .error c
        | .ok t => .ok (t.setPc (s.regAfterDown sp ra))

/-- CALL: sp -= 1; memory[sp] = PC + 2; PC = reg[a] (43_stack_call.md R165). -/
def execCall (a : Byte) (s : State) : Host.Outcome State Fault Refusal := s.conclude .call (s.callReg a)

/-- RET's checks and commit (43_stack_call.md R166). -/
def State.returnFromCall (s : State) : Except Cause State :=
  match s.memRead s.sp.toNat with
  | .error c => .error c
  | .ok (target, t) =>
    match spUp s.sp with
    | .error c => .error c
    | .ok sp => .ok ((t.setPc target).setSp sp)

/-- RET: PC = memory[sp]; sp += 1 (43_stack_call.md R166). -/
def execRet (s : State) : Host.Outcome State Fault Refusal := s.conclude .ret s.returnFromCall

end Sys2Proof.Machine
end

