-- ==== Sys2Proof/Machine/Fetch.lean ====
section
/-! DEFINITION. Fetching and decoding an instruction (40_dispatch.md R90 to R93), and what the host's word test places. -/

namespace Sys2Proof.Machine

/-- A fault met before an instruction executes: its cause, and the opcode byte once it has been fetched. -/
structure FetchFault where
  cause : Cause
  opcode : Option Byte
  deriving DecidableEq, Repr

/-- The opcode fetch: `MemRead(pc, 1)`, and the byte is placed in IR (40_dispatch.md R91). -/
def State.fetchOpcode (s : State) : Except FetchFault (Byte × State) :=
  match s.memRead s.pc.toNat with
  | .error c => .error ⟨c, none⟩
  | .ok (op, t) => .ok (op, t.setIr op)

/-- Fetch, decode and operand fetch, in the order of 60_exceptions.md R211 points 1 to 3. No operand byte is read after
an opcode byte without a handler (R202). The operand bytes go into the instruction (log entry 9). -/
def State.fetchInstr (s : State) : Except FetchFault (Instr × State) :=
  match s.fetchOpcode with
  | .error e => .error e
  | .ok (op, t) =>
    match decodeOpcode t.cfg op with
    | none => .error ⟨.invalidOpcode op, some op⟩
    | some m =>
      match t.fetchOperands m with
      | .error c => .error ⟨c, some op⟩
      | .ok (a, b, u) => .ok (m.build a b, u)

/-- What a step does around `exec`'s answer: the transient latches hold free values afterwards (log entry 4). -/
def settleOutcome : Host.Outcome State Fault Refusal → Host.Outcome State Fault Refusal
  | .next t => .next t.settle
  | .fault r => .fault r
  | .refused r => .refused r

/-- The bytes written from address `addr` on, as far as memory reaches. -/
def placeBytes (m : Memory) (addr : Nat) : List Byte → Memory
  | [] => m
  | v :: rest => if addr < memSize then placeBytes (m.write addr v) (addr + 1) rest else m

/-- The configuration in which the opcode byte is dispatched if any setting of `EXT_ALU_DISPATCH` dispatches it. -/
def configFor (cfg : Config) (op : Byte) : Config :=
  if (decodeOpcode cfg op).isSome then cfg
  else if (decodeOpcode { cfg with extAluDispatch := true } op).isSome then { cfg with extAluDispatch := true }
  else cfg

/-- The state with the bytes at pc, the engine Running and, for an EXT row, `EXT_ALU_DISPATCH` set: what it takes for
the next step to fetch and run them (log entries 12 and 13). -/
def State.placeInstr (s : State) (bytes : List Byte) : State :=
  { s with
    mem := placeBytes s.mem s.pc.toNat bytes
    engine := .running
    fault := none
    cfg := configFor s.cfg (bytes.headD 0) }

end Sys2Proof.Machine
end

