-- ==== Sys2Proof/Machine/Step.lean ====
section
/-! DEFINITION. One step (40_dispatch.md R90): enabled only while the engine is Running. -/

namespace Sys2Proof.Machine

/-- `Step()` (40_dispatch.md R90): fetch, decode, execute; a fatal condition on the way is taken (60_exceptions.md R206).
In Halted and Faulted no step exists (10_state.md R30). -/
def step (s : State) : Host.Outcome State Fault Refusal :=
  match s.engine with
  | .halted => .fault .engineHalted
  | .faulted => .fault .engineFaulted
  | .running =>
    match s.fetchInstr with
    | .error e => settleOutcome (.next (s.raise e.cause e.opcode))
    | .ok (i, t) => settleOutcome (exec i t)

/-- The state whose next step fetches and runs the word's instruction (log entries 12 and 13). -/
def State.withFetchWord (s : State) (nbits w : Nat) : State := s.placeInstr (tableBytes nbits w)

end Sys2Proof.Machine
end

