-- ==== Sys2Proof/Machine/HostPort.lean ====
section
/-! DEFINITION. The block's interface to the host (40_dispatch.md R101; 70_reset_and_hazards.md R230 to R236). None of
these acts inside a step. -/

namespace Sys2Proof.Machine

/-- `reset`, in any engine state; the only way out of Halted and Faulted (70_reset_and_hazards.md R230). -/
def hostReset (s : State) : State := State.resetWith s.cfg

/-- `load(bytes)`: the image is written at 0..n-1. It needs the core as reset left it, and is refused, with no state
changed, when the image has more than 256 bytes (70_reset_and_hazards.md R232; log entry 14). -/
def load (bytes : List Byte) (s : State) : Host.Outcome State Fault Refusal :=
  if s ≠ State.resetWith s.cfg then .refused .loadAfterStart
  else if bytes.length > memSize then .refused (.imageTooLong bytes.length)
  else .next { s with mem := s.mem.writeBytes 0 bytes }

/-- `Launch(bytes)`: the load applied to the reset state (70_reset_and_hazards.md R233). -/
def launch (cfg : Config) (bytes : List Byte) : Host.Outcome State Fault Refusal := load bytes (State.resetWith cfg)

/-- `run`: steps while the engine is Running (70_reset_and_hazards.md R234), at most `fuel` of them, since a run may
never stop (40_dispatch.md R98). -/
def hostRun : Nat → State → Host.Outcome State Fault Refusal
  | 0, s => .next s
  | fuel + 1, s =>
    match s.engine with
    | .halted | .faulted => .next s
    | .running =>
      match step s with
      | .next t => hostRun fuel t
      | .fault r => .fault r
      | .refused r => .refused r

/-- The `status` port (40_dispatch.md R101). -/
def status (s : State) : Engine := s.engine

/-- The `fault_info` port, valid when Faulted (40_dispatch.md R101). -/
def faultInfo (s : State) : Option FaultRecord := if s.engine = .faulted then s.fault else none

/-- The host reads the state after the run has stopped, not while it runs (70_reset_and_hazards.md R236). -/
def inspect (s : State) : Host.Outcome State Fault Refusal :=
  if s.engine = .running then .refused .inspectWhileRunning else .next s

/-- The transfers on `out_valid` and `out_data` of one step: the bytes it added to the output history, one for each PRN
(40_dispatch.md R101, 42_ldi_prn.md R153). -/
def transfers (before after : State) : List Byte := after.out.drop before.out.length

end Sys2Proof.Machine
end

