-- ==== Sys2Proof/WellFormed.lean ====
section
/-! DEFINITION. Well-formed configurations and instructions, as checks that run. -/

namespace Sys2Proof

/-- The opcode values are pairwise distinct: "Every opcode maps to exactly one handler" (30_encoding.md R76). -/
def OpcodeMap.distinct (o : OpcodeMap) : Bool := decide (Mnemonic.all.map o.get).Nodup

/-- The four values the source gives are fixed: HLT 1, LDI 130, MUL 162, PRN 71 (92_eei_decisions.md D10, 30_encoding.md R74). -/
def OpcodeMap.keepsSource (o : OpcodeMap) : Bool :=
  o.hlt == 1 && o.ldi == 130 && o.mul == 162 && o.prn == 71

/-- A configuration the spec allows (log entry 16). -/
def Config.wellFormed (cfg : Config) : Bool := cfg.opcodes.distinct && cfg.opcodes.keepsSource

/-- An instruction of the machine with this configuration: its row is dispatched (00_scope.md R9). Operand bytes have
no illegal values as encodings (30_encoding.md R77), so nothing is asked of them. -/
def Instr.wellFormed (cfg : Config) (i : Instr) : Bool := cfg.dispatches i.mnemonic

end Sys2Proof
end

