-- ==== Sys2Proof/Safety.lean ====
section
/-! DEFINITION. What claims about the machine are stated in: runs, final states, the machine's invariant, and agreement
of states up to what no instruction reads. -/

namespace Sys2Proof.Machine

/-- `t` is reached from `s` by some number of steps (40_dispatch.md R100). -/
def Reaches (s t : State) : Prop := ∃ k, Host.Core.run Sys2Proof.core k s = .next t

/-- A final state: the engine is Halted; a faulted state never is (40_dispatch.md R100, 60_exceptions.md R207). -/
def State.isFinal (s : State) : Bool := s.engine == .halted

/-- What a final run shows (40_dispatch.md R100). -/
structure Observation where
  out : List Byte
  regs : Vector Byte 8
  pc : Byte
  fl : Option Byte
  mem : Memory
  deriving DecidableEq, Repr

/-- The observation of a final state; none of any other (40_dispatch.md R100). -/
def State.observe (s : State) : Option Observation :=
  if s.isFinal then some ⟨s.out, s.regs, s.pc, s.fl, s.mem⟩ else none

/-- The program image completes: the run from its launch state reaches Halted (40_dispatch.md R100). -/
def Completes (cfg : Config) (image : List Byte) : Prop :=
  ∃ s t, launch cfg image = .next s ∧ Reaches s t ∧ t.isFinal = true

/-- FL is a value CMP writes: exactly one of E, G and L, bits 7:3 zero (10_state.md R28). -/
def flLegal : Option Byte → Prop
  | none => True
  | some v => v = 0b001#8 ∨ v = 0b010#8 ∨ v = 0b100#8

/-- The machine's invariant: memory is in its canonical form, FL is legal, a fault record stands exactly in Faulted
(10_state.md R20, R34), and a record names the pc the state kept (60_exceptions.md R206). -/
structure State.Inv (s : State) : Prop where
  mem : s.mem.wf = true
  fl : flLegal s.fl
  fault : s.fault.isSome = true ↔ s.engine = .faulted
  recordPc : ∀ r, s.fault = some r → r.pc = s.pc

/-- The state with the transient latches, and the count of free values, blanked out (10_state.md R32). -/
def State.forgetLatches (s : State) : State := { s with ir := 0, mar := 0, mdr := 0, draws := 0 }

/-- The state with another FL value. -/
def State.withFl (s : State) (fl : Option Byte) : State := { s with fl := fl }

/-- What no instruction changes but through a fault or through HLT: the configuration, the count of free values, IR, the
engine and the fault record; or the instruction took a fault, and that is all it did (60_exceptions.md R206). -/
def ControlFrame (i : Instr) (s t : State) : Prop :=
  t.cfg = s.cfg ∧ t.draws = s.draws ∧ t.ir = s.ir ∧
    ((t.engine = s.engine ∧ t.fault = s.fault) ∨ ∃ c, t = s.raise c (some (s.cfg.opcodes.get i.mnemonic)))

/-- Two outcomes of one shape whose next states satisfy `R`. -/
def OutcomesAgree (R : State → State → Prop) :
    Host.Outcome State Fault Refusal → Host.Outcome State Fault Refusal → Prop
  | .next s, .next t => R s t
  | .fault r, .fault q => r = q
  | .refused r, .refused q => r = q
  | _, _ => False

end Sys2Proof.Machine
end

