-- ==== Sys2Proof/Certificates/Slice0/Obligations.lean ====
section
/-! DEFINITION. The statements for the provers, from the numbered rules of spec/. A valid register operand is a byte
below 8; `s.regs.set k v` is the register file with x[k] = v. -/

open Sys2Proof Sys2Proof.Machine

/-! ### Encoding -/

/-- 30_encoding.md R71, R73, R76: decoding an encoded instruction gives it back, with every operand byte at every value,
in every configuration with distinct opcode values. -/
def Obligations.DecodeEncodeRoundTrip : Prop :=
  ∀ (cfg : Config) (i : Instr) (rest : List Byte), cfg.opcodes.distinct = true → i.wellFormed cfg = true →
    decode cfg (encode cfg i ++ rest) = .ok (i, rest)

/-- 30_encoding.md R71, R76, R77: only encodings decode, each to a dispatched instruction. -/
def Obligations.DecodeReadsOnlyEncodings : Prop :=
  ∀ (cfg : Config) (bytes rest : List Byte) (i : Instr), decode cfg bytes = .ok (i, rest) →
    i.wellFormed cfg = true ∧ bytes = encode cfg i ++ rest

/-- 30_encoding.md R74, 95_test_vectors.md: words written out from the table decode to their instructions. -/
def Obligations.SpecWordsDecode : Prop :=
  decode Config.defaults [0b10000010, 0, 8] = .ok (.ldi 0 8, []) ∧
  decode Config.defaults [0b10100010, 0, 1] = .ok (.mul 0 1, []) ∧
  decode Config.defaults [0b01000111, 0, 1] = .ok (.prn 0, [1]) ∧
  decode Config.defaults [0b00000001] = .ok (.hlt, []) ∧
  decode Config.defaults [0b01010000, 1] = .ok (.call 1, []) ∧
  decode Config.defaults [0b01010110, 4] = .ok (.jne 4, []) ∧
  decode Config.defaults [0b10100100, 0, 1] = .error (.noHandler 0xA4) ∧
  decode Config.allRows [0b10100100, 0, 1] = .ok (.mod 0 1, []) ∧
  decode Config.defaults [0b00000000] = .error (.noHandler 0)

/-- 30_encoding.md R75 and R77: in the default table bits 7:6 of an opcode are its operand count, and 243 bytes are
illegal, 236 with the EXT rows. -/
def Obligations.DefaultOpcodeTableShape : Prop :=
  (∀ m : Mnemonic, (OpcodeMap.defaults.get m).toNat / 64 = m.format.operandCount) ∧
  ((List.range 256).filter fun n => (decodeOpcode Config.defaults (BitVec.ofNat 8 n)).isNone).length = 243 ∧
  ((List.range 256).filter fun n => (decodeOpcode Config.allRows (BitVec.ofNat 8 n)).isNone).length = 236

/-- 00_scope.md R9: `EXT_ALU_DISPATCH` selects whether AND, OR, XOR, NOT, SHL, SHR and MOD are instructions. -/
def Obligations.ExtRowsNeedTheParameter : Prop :=
  Config.defaults.extAluDispatch = false ∧
  ∀ (cfg : Config) (m : Mnemonic), cfg.opcodes.distinct = true → m ∈ [.and, .or, .xor, .not, .shl, .shr, .mod] →
    (cfg.extAluDispatch = false → decodeOpcode cfg (cfg.opcodes.get m) = none) ∧
    (cfg.extAluDispatch = true → decodeOpcode cfg (cfg.opcodes.get m) = some m)

/-! ### Fetching and stepping -/

/-- 40_dispatch.md R90, R93: when the bytes at the pc decode to an instruction, a step runs `exec` on it in the state
whose IR holds the opcode and whose MAR and MDR hold the last byte read; the latches are freed afterwards. -/
def Obligations.StepRunsDecodedInstruction : Prop :=
  ∀ (s : State) (bytes : List Byte) (i : Instr), s.engine = .running → decode s.cfg bytes = .ok (i, []) →
    (∀ (k : Nat) (h : k < bytes.length), s.pc.toNat + k ≤ 255 ∧ s.cell (s.pc.toNat + k) = some bytes[k]) →
    step s = settleOutcome (exec i
      { s with ir := bytes.headD 0, mar := BitVec.ofNat 8 (s.pc.toNat + (bytes.length - 1)), mdr := bytes.getLastD 0 })

/-- 40_dispatch.md R91: the opcode fetch places the byte at the pc in IR, and is an UninitializedRead when the cell
holds no value; it is never out of bounds. -/
def Obligations.OpcodeFetch : Prop :=
  ∀ s : State,
    (∀ op, s.cell s.pc.toNat = some op → s.fetchOpcode = .ok (op, { s with ir := op, mar := s.pc, mdr := op })) ∧
    (s.cell s.pc.toNat = none → s.fetchOpcode = .error ⟨.uninitializedRead s.pc.toNat, none⟩ ∧
      (s.engine = .running → step s = .next (s.raise (.uninitializedRead s.pc.toNat) none).settle))

/-- 60_exceptions.md R202: an opcode byte without a handler is InvalidOpcode, whatever follows it; the EXT opcodes are
such bytes while `EXT_ALU_DISPATCH` is false. -/
def Obligations.IllegalOpcodeFaults : Prop :=
  ∀ (s : State) (op : Byte), s.engine = .running → s.cell s.pc.toNat = some op →
    (decodeOpcode s.cfg op = none ∨
      (s.cfg.opcodes.distinct = true ∧ s.cfg.extAluDispatch = false ∧ ∃ m : Mnemonic, m.isExt = true ∧ op = s.cfg.opcodes.get m)) →
    step s = .next (s.raise (.invalidOpcode op) (some op)).settle

/-- 40_dispatch.md R93, 60_exceptions.md R211 point 3: the first operand byte that cannot be read is the one reported. -/
def Obligations.OperandFetchFaults : Prop :=
  ∀ (s : State) (op : Byte) (m : Mnemonic) (k : Nat), s.engine = .running → s.cell s.pc.toNat = some op →
    decodeOpcode s.cfg op = some m → 1 ≤ k → k ≤ m.format.operandCount →
    (∀ j, 1 ≤ j → j < k → s.pc.toNat + j ≤ 255 ∧ (s.cell (s.pc.toNat + j)).isSome = true) →
    (255 < s.pc.toNat + k →
      step s = .next (s.raise (.outOfBounds .addr (s.pc.toNat + k : Nat)) (some op)).settle) ∧
    (s.pc.toNat + k ≤ 255 → s.cell (s.pc.toNat + k) = none →
      step s = .next (s.raise (.uninitializedRead (s.pc.toNat + k)) (some op)).settle)

/-- 44_branch_halt.md, HLT: after the step that executes HLT no further step, and so no fetch, exists. That the pc keeps
HLT's own address is the reading of log entry 15; the outcome `engineHalted` is the model's choice of log entry 7. -/
def Obligations.NothingRunsAfterHlt : Prop :=
  ∀ (s t : State) (op : Byte), s.cell s.pc.toNat = some op → decodeOpcode s.cfg op = some .hlt → step s = .next t →
    t.engine = .halted ∧ t.pc = s.pc ∧ step t = .fault .engineHalted

/-- 10_state.md R30, 40_dispatch.md R99: a step exists exactly while the engine is Running; Halted and Faulted are terminal. -/
def Obligations.StepEnabledExactlyWhileRunning : Prop :=
  ∀ s : State, (s.engine = .running ↔ ∃ t, step s = .next t) ∧
    (s.engine = .halted → step s = .fault .engineHalted) ∧ (s.engine = .faulted → step s = .fault .engineFaulted)

/-! ### What each instruction does -/

/-- 44_branch_halt.md R186: HLT sets the engine to Halted and changes nothing else. -/
def Obligations.HltCompletes : Prop :=
  ∀ s : State, exec .hlt s = .next { s with engine := .halted }

/-- 43_stack_call.md R166: RET pops the pc. -/
def Obligations.RetCompletes : Prop :=
  ∀ (s : State) (v : Byte), s.cell s.sp.toNat = some v → s.sp ≠ 255 →
    exec .ret s = .next { s with regs := s.regs.set 7 (s.sp + 1), pc := v, mar := s.sp, mdr := v }

/-- 43_stack_call.md R163: PUSH decrements SP and stores the register as it then stands at the new SP. -/
def Obligations.PushCompletes : Prop :=
  ∀ (a : Byte) (s : State) (ha : a.toNat < 8), s.sp ≠ 0 → s.pc.toNat + 2 ≤ 255 →
    exec (.push a) s = .next { s with
      regs := s.regs.set 7 (s.sp - 1)
      mem := s.mem.write (s.sp - 1).toNat (if a = 7 then s.sp - 1 else s.reg ⟨a.toNat, ha⟩)
      pc := s.pc + 2
      mar := s.sp - 1
      mdr := if a = 7 then s.sp - 1 else s.reg ⟨a.toNat, ha⟩ }

/-- 43_stack_call.md R164: POP loads the register from the top of the stack, then increments SP as it then stands. -/
def Obligations.PopCompletes : Prop :=
  ∀ (a v : Byte) (s : State) (ha : a.toNat < 8), s.cell s.sp.toNat = some v → (if a = 7 then v else s.sp) ≠ 255 →
    s.pc.toNat + 2 ≤ 255 →
    exec (.pop a) s = .next { s with
      regs := (s.regs.set a.toNat v ha).set 7 ((if a = 7 then v else s.sp) + 1)
      pc := s.pc + 2
      mar := s.sp
      mdr := v }

/-- 42_ldi_prn.md R152: PRN appends the register to the output. -/
def Obligations.PrnCompletes : Prop :=
  ∀ (a : Byte) (s : State) (ha : a.toNat < 8), s.pc.toNat + 2 ≤ 255 →
    exec (.prn a) s = .next { s with out := s.out ++ [s.reg ⟨a.toNat, ha⟩], pc := s.pc + 2 }

/-- 43_stack_call.md R165: CALL pushes pc + 2 and jumps to the register as it stands after the decrement. -/
def Obligations.CallCompletes : Prop :=
  ∀ (a : Byte) (s : State) (ha : a.toNat < 8), s.sp ≠ 0 → s.pc.toNat + 2 ≤ 255 →
    exec (.call a) s = .next { s with
      regs := s.regs.set 7 (s.sp - 1)
      mem := s.mem.write (s.sp - 1).toNat (s.pc + 2)
      pc := if a = 7 then s.sp - 1 else s.reg ⟨a.toNat, ha⟩
      mar := s.sp - 1
      mdr := s.pc + 2 }

/-- 44_branch_halt.md R181: JMP sets the pc to the register, and nothing more is asked. -/
def Obligations.JmpCompletes : Prop :=
  ∀ (a : Byte) (s : State) (ha : a.toNat < 8), exec (.jmp a) s = .next { s with pc := s.reg ⟨a.toNat, ha⟩ }

/-- 44_branch_halt.md R182 to R185: JEQ is taken iff bit 0 of FL is 1, JNE iff it is 0; only the path not taken needs
pc + 2 to exist. -/
def Obligations.ConditionalBranchesComplete : Prop :=
  ∀ (a fl : Byte) (s : State) (ha : a.toNat < 8), s.fl = some fl →
    (fl.getLsbD 0 = true → exec (.jeq a) s = .next { s with pc := s.reg ⟨a.toNat, ha⟩ }) ∧
    (fl.getLsbD 0 = false → exec (.jne a) s = .next { s with pc := s.reg ⟨a.toNat, ha⟩ }) ∧
    (fl.getLsbD 0 = false → s.pc.toNat + 2 ≤ 255 → exec (.jeq a) s = .next { s with pc := s.pc + 2 }) ∧
    (fl.getLsbD 0 = true → s.pc.toNat + 2 ≤ 255 → exec (.jne a) s = .next { s with pc := s.pc + 2 })

/-- 41_alu.md R126: under `wrap`, NOT complements the register. -/
def Obligations.NotCompletes : Prop :=
  ∀ (a : Byte) (s : State) (ha : a.toNat < 8), s.cfg.aluOverflow = .wrap → s.pc.toNat + 2 ≤ 255 →
    exec (.not a) s = .next { s with regs := s.regs.set a.toNat (~~~ s.reg ⟨a.toNat, ha⟩) ha, pc := s.pc + 2 }

/-- 42_ldi_prn.md R150: LDI writes the immediate byte as it stands. -/
def Obligations.LdiCompletes : Prop :=
  ∀ (a imm : Byte) (s : State) (ha : a.toNat < 8), s.pc.toNat + 3 ≤ 255 →
    exec (.ldi a imm) s = .next { s with regs := s.regs.set a.toNat imm ha, pc := s.pc + 3 }

/-- 41_alu.md R120: ADD keeps the low 8 bits of the sum, under `wrap` always and under `fault` when the sum is a byte. -/
def Obligations.AddCompletes : Prop :=
  ∀ (a b : Byte) (s : State) (ha : a.toNat < 8) (hb : b.toNat < 8),
    (s.cfg.aluOverflow = .wrap ∨ (s.reg ⟨a.toNat, ha⟩).toNat + (s.reg ⟨b.toNat, hb⟩).toNat ≤ 255) → s.pc.toNat + 3 ≤ 255 →
    exec (.add a b) s = .next { s with
      regs := s.regs.set a.toNat (s.reg ⟨a.toNat, ha⟩ + s.reg ⟨b.toNat, hb⟩) ha, pc := s.pc + 3 }

/-- 41_alu.md R121: MUL keeps the low 8 bits of the product, under `wrap` always and under `fault` when it is a byte. -/
def Obligations.MulCompletes : Prop :=
  ∀ (a b : Byte) (s : State) (ha : a.toNat < 8) (hb : b.toNat < 8),
    (s.cfg.aluOverflow = .wrap ∨ (s.reg ⟨a.toNat, ha⟩).toNat * (s.reg ⟨b.toNat, hb⟩).toNat ≤ 255) → s.pc.toNat + 3 ≤ 255 →
    exec (.mul a b) s = .next { s with
      regs := s.regs.set a.toNat (s.reg ⟨a.toNat, ha⟩ * s.reg ⟨b.toNat, hb⟩) ha, pc := s.pc + 3 }

/-- 41_alu.md R129: MOD writes the unsigned remainder for every nonzero divisor. -/
def Obligations.ModCompletes : Prop :=
  ∀ (a b : Byte) (s : State) (ha : a.toNat < 8) (hb : b.toNat < 8), s.reg ⟨b.toNat, hb⟩ ≠ 0 → s.pc.toNat + 3 ≤ 255 →
    exec (.mod a b) s = .next { s with
      regs := s.regs.set a.toNat (s.reg ⟨a.toNat, ha⟩ % s.reg ⟨b.toNat, hb⟩) ha, pc := s.pc + 3 }

/-- 41_alu.md R122: CMP writes FL whole, to 0b100, 0b010 or 0b001, by the unsigned order, and no register. -/
def Obligations.CmpCompletes : Prop :=
  ∀ (a b : Byte) (s : State) (ha : a.toNat < 8) (hb : b.toNat < 8), s.pc.toNat + 3 ≤ 255 →
    exec (.cmp a b) s = .next { s with
      fl := some (if (s.reg ⟨a.toNat, ha⟩).toNat < (s.reg ⟨b.toNat, hb⟩).toNat then 0b100#8
        else if (s.reg ⟨b.toNat, hb⟩).toNat < (s.reg ⟨a.toNat, ha⟩).toNat then 0b010#8 else 0b001#8)
      pc := s.pc + 3 }

/-- 41_alu.md R123 to R125: AND, OR and XOR, in either setting of `ALU_OVERFLOW`. -/
def Obligations.BitwiseComplete : Prop :=
  ∀ (a b : Byte) (s : State) (ha : a.toNat < 8) (hb : b.toNat < 8), s.pc.toNat + 3 ≤ 255 →
    exec (.and a b) s = .next { s with
      regs := s.regs.set a.toNat (s.reg ⟨a.toNat, ha⟩ &&& s.reg ⟨b.toNat, hb⟩) ha, pc := s.pc + 3 } ∧
    exec (.or a b) s = .next { s with
      regs := s.regs.set a.toNat (s.reg ⟨a.toNat, ha⟩ ||| s.reg ⟨b.toNat, hb⟩) ha, pc := s.pc + 3 } ∧
    exec (.xor a b) s = .next { s with
      regs := s.regs.set a.toNat (s.reg ⟨a.toNat, ha⟩ ^^^ s.reg ⟨b.toNat, hb⟩) ha, pc := s.pc + 3 }

/-- 41_alu.md R127, R128: SHL and SHR by the whole second byte; an amount of 8 or more gives 0. -/
def Obligations.ShiftsComplete : Prop :=
  ∀ (a b : Byte) (s : State) (ha : a.toNat < 8) (hb : b.toNat < 8), s.pc.toNat + 3 ≤ 255 →
    ((s.cfg.aluOverflow = .wrap ∨ (s.reg ⟨a.toNat, ha⟩).toNat * 2 ^ (s.reg ⟨b.toNat, hb⟩).toNat ≤ 255) →
      exec (.shl a b) s = .next { s with
        regs := s.regs.set a.toNat (s.reg ⟨a.toNat, ha⟩ <<< (s.reg ⟨b.toNat, hb⟩).toNat) ha, pc := s.pc + 3 }) ∧
    exec (.shr a b) s = .next { s with
      regs := s.regs.set a.toNat (s.reg ⟨a.toNat, ha⟩ >>> (s.reg ⟨b.toNat, hb⟩).toNat) ha, pc := s.pc + 3 }

/-! ### Where instructions fault -/

/-- 40_dispatch.md R94: whatever else is wrong, the first register operand of 8 or more is the fault, before any write. -/
def Obligations.BadRegisterOperandFaults : Prop :=
  ∀ (i : Instr) (s : State) (x : Byte), i.registerOperands.find? (fun r => decide (8 ≤ r.toNat)) = some x →
    exec i s = .next (s.raise (.outOfBounds .reg x.toNat) (some (s.cfg.opcodes.get i.mnemonic)))

/-- 41_alu.md R111, R120, R121, R126, R127: under `ALU_OVERFLOW = fault` an exact result outside 0..255 is AluOverflow. -/
def Obligations.AluOverflowFaults : Prop :=
  ∀ (a b A B : Byte) (s : State) (ha : a.toNat < 8) (hb : b.toNat < 8), s.cfg.aluOverflow = .fault →
    s.reg ⟨a.toNat, ha⟩ = A → s.reg ⟨b.toNat, hb⟩ = B →
    (255 < A.toNat + B.toNat →
      exec (.add a b) s = .next (s.raise (.aluOverflow (A.toNat + B.toNat : Nat)) (some s.cfg.opcodes.add))) ∧
    (255 < A.toNat * B.toNat →
      exec (.mul a b) s = .next (s.raise (.aluOverflow (A.toNat * B.toNat : Nat)) (some s.cfg.opcodes.mul))) ∧
    (255 < A.toNat * 2 ^ B.toNat →
      exec (.shl a b) s = .next (s.raise (.aluOverflow (A.toNat * 2 ^ B.toNat : Nat)) (some s.cfg.opcodes.shl))) ∧
    exec (.not a) s = .next (s.raise (.aluOverflow (-(A.toNat : Int) - 1)) (some s.cfg.opcodes.not))

/-- 60_exceptions.md R204, 41_alu.md R129: MOD by zero is ArithmeticFault, at every pc. -/
def Obligations.ModByZeroFaults : Prop :=
  ∀ (a b : Byte) (s : State), a.toNat < 8 → (hb : b.toNat < 8) → s.reg ⟨b.toNat, hb⟩ = 0 →
    exec (.mod a b) s = .next (s.raise (.arithmeticFault a b) (some s.cfg.opcodes.mod))

/-- 60_exceptions.md R209: JEQ and JNE fault while FL holds no value, at every pc. -/
def Obligations.UnsetFlagsFaults : Prop :=
  ∀ (a : Byte) (s : State), a.toNat < 8 → s.fl = none →
    exec (.jeq a) s = .next (s.raise .unsetFlags (some s.cfg.opcodes.jeq)) ∧
    exec (.jne a) s = .next (s.raise .unsetFlags (some s.cfg.opcodes.jne))

/-- 43_stack_call.md R161 to R166, 60_exceptions.md R211 point 5: PUSH and CALL at SP = 0; POP and RET at a top cell
without a value, and then where the SP to increment is 255. -/
def Obligations.StackFaults : Prop :=
  ∀ (a : Byte) (s : State), a.toNat < 8 →
    (s.sp = 0 →
      exec (.push a) s = .next (s.raise (.outOfBounds .sp (-1)) (some s.cfg.opcodes.push)) ∧
      exec (.call a) s = .next (s.raise (.outOfBounds .sp (-1)) (some s.cfg.opcodes.call))) ∧
    (s.cell s.sp.toNat = none →
      exec (.pop a) s = .next (s.raise (.uninitializedRead s.sp.toNat) (some s.cfg.opcodes.pop)) ∧
      exec .ret s = .next (s.raise (.uninitializedRead s.sp.toNat) (some s.cfg.opcodes.ret))) ∧
    (∀ v, s.cell s.sp.toNat = some v →
      ((if a = 7 then v else s.sp) = 255 →
        exec (.pop a) s = .next (s.raise (.outOfBounds .sp 256) (some s.cfg.opcodes.pop))) ∧
      (s.sp = 255 → exec .ret s = .next (s.raise (.outOfBounds .sp 256) (some s.cfg.opcodes.ret))))

/-- 40_dispatch.md R97: a three-byte instruction whose other checks pass faults where pc + 3 is above 255. -/
def Obligations.ThreeByteNextPcFaults : Prop :=
  ∀ (a b : Byte) (s : State) (ha : a.toNat < 8) (hb : b.toNat < 8), 255 < s.pc.toNat + 3 →
    (∀ imm, exec (.ldi a imm) s = .next (s.raise (.outOfBounds .pc (s.pc.toNat + 3 : Nat)) (some s.cfg.opcodes.ldi))) ∧
    ∀ (i : Instr) (sel : AluSelect) (r : AluOutput),
      (i, sel) ∈ [(.add a b, .add), (.mul a b, .mul), (.mod a b, .mod), (.cmp a b, .cmp), (.and a b, .and),
        (.or a b, .or), (.xor a b, .xor), (.shl a b, .shl), (.shr a b, .shr)] →
      alu s.cfg.aluOverflow sel a b (s.reg ⟨a.toNat, ha⟩) (s.reg ⟨b.toNat, hb⟩) = .ok r →
      exec i s = .next (s.raise (.outOfBounds .pc (s.pc.toNat + 3 : Nat)) (some (s.cfg.opcodes.get i.mnemonic)))

/-- 40_dispatch.md R97, 43_stack_call.md R165: a two-byte instruction whose other checks pass faults where pc + 2, its
next pc or CALL's return address, is above 255. -/
def Obligations.TwoByteNextPcFaults : Prop :=
  ∀ (a : Byte) (s : State), a.toNat < 8 → 255 < s.pc.toNat + 2 →
    exec (.prn a) s = .next (s.raise (.outOfBounds .pc (s.pc.toNat + 2 : Nat)) (some s.cfg.opcodes.prn)) ∧
    (s.cfg.aluOverflow = .wrap →
      exec (.not a) s = .next (s.raise (.outOfBounds .pc (s.pc.toNat + 2 : Nat)) (some s.cfg.opcodes.not))) ∧
    (s.sp ≠ 0 →
      exec (.push a) s = .next (s.raise (.outOfBounds .pc (s.pc.toNat + 2 : Nat)) (some s.cfg.opcodes.push)) ∧
      exec (.call a) s = .next (s.raise (.outOfBounds .pc (s.pc.toNat + 2 : Nat)) (some s.cfg.opcodes.call))) ∧
    (∀ v, s.cell s.sp.toNat = some v → (if a = 7 then v else s.sp) ≠ 255 →
      exec (.pop a) s = .next (s.raise (.outOfBounds .pc (s.pc.toNat + 2 : Nat)) (some s.cfg.opcodes.pop))) ∧
    (∀ fl, s.fl = some fl →
      (fl.getLsbD 0 = false →
        exec (.jeq a) s = .next (s.raise (.outOfBounds .pc (s.pc.toNat + 2 : Nat)) (some s.cfg.opcodes.jeq))) ∧
      (fl.getLsbD 0 = true →
        exec (.jne a) s = .next (s.raise (.outOfBounds .pc (s.pc.toNat + 2 : Nat)) (some s.cfg.opcodes.jne))))

/-! ### Frames -/

/-- 10_state.md R23, R27: the instructions that write only their register operand `a` leave every other register, FL,
every byte of memory, the output and the latches as they were, whether they complete or fault. -/
def Obligations.RegisterWriterFrame : Prop :=
  ∀ (i : Instr) (a b : Byte) (s t : State),
    i ∈ [.ldi a b, .add a b, .mul a b, .mod a b, .and a b, .or a b, .xor a b, .shl a b, .shr a b, .not a] →
    exec i s = .next t →
    (∀ j : Fin 8, j.val ≠ a.toNat → t.reg j = s.reg j) ∧ t.fl = s.fl ∧ (∀ addr, t.cell addr = s.cell addr) ∧
      t.out = s.out ∧ t.mar = s.mar ∧ t.mdr = s.mdr ∧ ControlFrame i s t

/-- 10_state.md R23, R27, R33: CMP, PRN, JMP, JEQ and JNE leave every register, R7 among them, and every byte of memory;
only CMP of these writes FL, only PRN the output. -/
def Obligations.NoRegisterWrittenFrame : Prop :=
  ∀ (i : Instr) (a b : Byte) (s t : State), i ∈ [.cmp a b, .prn a, .jmp a, .jeq a, .jne a] → exec i s = .next t →
    (∀ j : Fin 8, t.reg j = s.reg j) ∧ (∀ addr, t.cell addr = s.cell addr) ∧ (i ≠ .cmp a b → t.fl = s.fl) ∧
      (i ≠ .prn a → t.out = s.out) ∧ t.mar = s.mar ∧ t.mdr = s.mdr ∧ ControlFrame i s t

/-- 20_memory.md R51, 10_state.md R23: PUSH and CALL write SP and the one byte at the decremented SP. -/
def Obligations.PushCallFrame : Prop :=
  ∀ (i : Instr) (a : Byte) (s t : State), i ∈ [.push a, .call a] → exec i s = .next t →
    (∀ j : Fin 8, j ≠ spIndex → t.reg j = s.reg j) ∧ t.fl = s.fl ∧ t.out = s.out ∧
      (∀ p, spDown s.sp = .ok p → ∀ addr, addr ≠ p.toNat → t.cell addr = s.cell addr) ∧
      (∀ c, spDown s.sp = .error c → ∀ addr, t.cell addr = s.cell addr) ∧ ControlFrame i s t

/-- 10_state.md R23: POP writes its register operand and SP, RET writes SP; no byte of memory changes. -/
def Obligations.PopRetFrame : Prop :=
  ∀ (i : Instr) (a : Byte) (s t : State), i ∈ [.pop a, .ret] → exec i s = .next t →
    (∀ j : Fin 8, j ≠ spIndex → (i = .ret ∨ j.val ≠ a.toNat) → t.reg j = s.reg j) ∧ t.fl = s.fl ∧ t.out = s.out ∧
      (∀ addr, t.cell addr = s.cell addr) ∧ ControlFrame i s t

/-! ### The shared operations -/

/-- 20_memory.md R53 and R54: a read checks the range, then the cell, returns the byte, and changes only the latches; a
write checks the range and changes only the cell and the latches. -/
def Obligations.MemoryAccessPoint : Prop :=
  ∀ (s : State) (addr : Nat),
    (255 < addr → s.memRead addr = .error (.outOfBounds .addr addr) ∧
      ∀ v, s.memWrite addr v = .error (.outOfBounds .addr addr)) ∧
    (addr ≤ 255 → s.cell addr = none → s.memRead addr = .error (.uninitializedRead addr)) ∧
    (∀ v, addr ≤ 255 → s.cell addr = some v → ∃ t, s.memRead addr = .ok (v, t) ∧
      t = { s with mar := BitVec.ofNat 8 addr, mdr := v } ∧ ∃ u, t.memRead addr = .ok (v, u)) ∧
    (∀ v, addr ≤ 255 → ∃ t, s.memWrite addr v = .ok t ∧ t.cell addr = some v ∧
      (∀ other, other ≠ addr → t.cell other = s.cell other) ∧
      t = { s with mem := t.mem, mar := BitVec.ofNat 8 addr, mdr := v })

/-- 43_stack_call.md R161 (and R162): SP does not wrap from 0 to 255, nor from 255 to 0. -/
def Obligations.StackPointerNeverWraps : Prop :=
  ∀ sp : Byte,
    (sp = 0 → spDown sp = .error (.outOfBounds .sp (-1))) ∧
    (sp ≠ 0 → ∃ r, spDown sp = .ok r ∧ r.toNat + 1 = sp.toNat) ∧
    (sp = 255 → spUp sp = .error (.outOfBounds .sp 256)) ∧
    (sp ≠ 255 → ∃ r, spUp sp = .ok r ∧ r.toNat = sp.toNat + 1)

/-- 41_alu.md R111, 60_exceptions.md R210: `Fit8`, and that only ADD, MUL, SHL and NOT can need it. -/
def Obligations.ResultsFitEightBits : Prop :=
  (∀ (mode : AluOverflow) (v : Int), 0 ≤ v → v ≤ 255 → ∃ r, fit8 mode v = .ok r ∧ (r.toNat : Int) = v) ∧
  (∀ v : Int, ∃ r, fit8 .wrap v = .ok r ∧ (r.toNat : Int) = v % 256) ∧
  (∀ v : Int, ¬(0 ≤ v ∧ v ≤ 255) → fit8 .fault v = .error (.aluOverflow v)) ∧
  (∀ (mode : AluOverflow) (sel : AluSelect) (a b A B : Byte) (v : Int), alu mode sel a b A B = .error (.aluOverflow v) →
    mode = .fault ∧ ¬(0 ≤ v ∧ v ≤ 255) ∧ sel ∈ [.add, .mul, .shl, .not])

/-- 41_alu.md R112, R130: under `wrap` the exact-value ALU is the 8-bit hardware's: each operation is the bit-vector
operator of width 8, and CMP's three bits are the unsigned comparisons. -/
def Obligations.AluIsEightBitHardware : Prop :=
  ∀ a b A B : Byte,
    alu .wrap .add a b A B = .ok (.result (A + B)) ∧ alu .wrap .mul a b A B = .ok (.result (A * B)) ∧
    alu .wrap .and a b A B = .ok (.result (A &&& B)) ∧ alu .wrap .or a b A B = .ok (.result (A ||| B)) ∧
    alu .wrap .xor a b A B = .ok (.result (A ^^^ B)) ∧ alu .wrap .not a b A B = .ok (.result (~~~ A)) ∧
    alu .wrap .shl a b A B = .ok (.result (A <<< B.toNat)) ∧ alu .wrap .shr a b A B = .ok (.result (A >>> B.toNat)) ∧
    (B ≠ 0 → alu .wrap .mod a b A B = .ok (.result (A % B))) ∧
    (B = 0 → alu .wrap .mod a b A B = .error (.arithmeticFault a b)) ∧
    ∃ f, alu .wrap .cmp a b A B = .ok (.flags f) ∧ flagE f = decide (A = B) ∧ flagG f = decide (B.toNat < A.toNat) ∧
      flagL f = decide (A.toNat < B.toNat) ∧ f.toNat < 8

/-! ### The whole machine -/

/-- 10_state.md R20, R28, R30, R34: every step keeps the canonical memory, a legal FL and the agreement of the fault
record with the engine. -/
def Obligations.StepKeepsInvariant : Prop :=
  ∀ s t : State, s.Inv → step s = .next t → t.Inv

/-- 10_state.md R36: the reset state meets the invariant, under every configuration. -/
def Obligations.ResetMeetsInvariant : Prop :=
  State.reset.Inv ∧ ∀ cfg : Config, (State.resetWith cfg).Inv

/-- 40_dispatch.md R100, 10_state.md R20: every state of the run of every program image, in every configuration, meets the
invariant, and the configuration is the one the run was launched with. -/
def Obligations.LaunchedRunsKeepInvariant : Prop :=
  ∀ (cfg : Config) (image : List Byte) (s t : State), launch cfg image = .next s → Reaches s t → t.Inv ∧ t.cfg = cfg

/-- 10_state.md R32: IR, MAR and MDR are read by no instruction: states that differ only in them step to states that
differ only in them. -/
def Obligations.LatchesAreUnobservable : Prop :=
  ∀ s t : State, s.forgetLatches = t.forgetLatches →
    OutcomesAgree (fun u w => u.forgetLatches = w.forgetLatches) (step s) (step t)

/-- 44_branch_halt.md R183: of FL only bit E is read: two FL values with the same bit E give steps that differ at most in
FL itself. -/
def Obligations.OnlyBitEIsRead : Prop :=
  ∀ (s : State) (v w : Byte), v.getLsbD 0 = w.getLsbD 0 →
    OutcomesAgree (fun t u => t.withFl none = u.withFl none) (step (s.withFl (some v))) (step (s.withFl (some w)))

/-- 60_exceptions.md R206, R212, 10_state.md R34: a step that ends in Faulted has changed nothing but the engine and the
fault record, which holds a cause, the pc, and the opcode byte: what the cell at the pc holds, none when it holds no
value. (The transient latches apart.) -/
def Obligations.FaultsArePrecise : Prop :=
  ∀ s t : State, step s = .next t → t.engine = .faulted →
    ∃ c, t.forgetLatches = (s.raise c (s.cell s.pc.toNat)).forgetLatches

/-- 10_state.md R30, 40_dispatch.md R98: only HLT leads to Halted, and it changes nothing else. -/
def Obligations.OnlyHltHalts : Prop :=
  ∀ s t : State, step s = .next t → t.engine = .halted →
    ∃ op, s.cell s.pc.toNat = some op ∧ decodeOpcode s.cfg op = some .hlt ∧
      t.forgetLatches = { s with engine := .halted }.forgetLatches

/-- 10_state.md R20, R27, R33, 20_memory.md R51: only CMP writes FL, only PRN the output, only PUSH and CALL memory, and
nothing the configuration. -/
def Obligations.SoleWriters : Prop :=
  ∀ (i : Instr) (s t : State), exec i s = .next t →
    ((∀ a b, i ≠ .cmp a b) → t.fl = s.fl) ∧ ((∀ a, i ≠ .prn a) → t.out = s.out) ∧
      ((∀ a, i ≠ .push a ∧ i ≠ .call a) → t.mem = s.mem) ∧ t.cfg = s.cfg

/-- 60_exceptions.md R203: a select outside the set is AluOpFault, and no step raises it. -/
def Obligations.AluOpFaultIsUnreachable : Prop :=
  (∀ (mode : AluOverflow) (n : Nat) (a b A B : Byte), alu mode (.outside n) a b A B = .error (.aluOpFault n)) ∧
  ∀ (s t : State) (r : FaultRecord), step s = .next t → s.fault = none → t.fault = some r → ∀ n, r.cause ≠ .aluOpFault n

/-! ### Properties the source states -/

/-- 43_stack_call.md R167: PUSH then POP round-trips the value and restores SP when neither operand is R7; with R7 the
values are those of the statement order (log entry 15). -/
def Obligations.PushPopRoundTrip : Prop :=
  ∀ (a b : Byte) (s t u : State) (ha : a.toNat < 8) (hb : b.toNat < 8), s.engine = .running →
    exec (.push a) s = .next t → t.engine = .running → exec (.pop b) t = .next u → u.engine = .running →
    (a ≠ 7 → b ≠ 7 → u.reg ⟨b.toNat, hb⟩ = s.reg ⟨a.toNat, ha⟩ ∧ u.sp = s.sp) ∧
    (a ≠ 7 → b = 7 → u.sp = s.reg ⟨a.toNat, ha⟩ + 1) ∧
    (a = 7 → b = 7 → u.sp = s.sp) ∧
    (a = 7 → b ≠ 7 → u.reg ⟨b.toNat, hb⟩ = s.sp - 1 ∧ u.sp = s.sp)

/-- 43_stack_call.md, CALL and RET: CALL sets the pc to the register's value, for R7 as it stands after the decrement (the
statement order of log entry 15), and pushes its pc + 2; a RET from any state with the same SP and the same byte there
returns to that address and restores SP. -/
def Obligations.CallRetPairing : Prop :=
  ∀ (a : Byte) (s t u : State) (ha : a.toNat < 8), s.engine = .running → exec (.call a) s = .next t → t.engine = .running →
    u.sp = t.sp → u.cell t.sp.toNat = t.cell t.sp.toNat →
    t.pc = (if a = 7 then s.sp - 1 else s.reg ⟨a.toNat, ha⟩) ∧ t.cell t.sp.toNat = some (s.pc + 2) ∧
      (s.pc + 2).toNat = s.pc.toNat + 2 ∧
      ∃ w, exec .ret u = .next w ∧ w.pc = s.pc + 2 ∧ w.sp = s.sp ∧ w.engine = u.engine

/-- 42_ldi_prn.md R151: LDI followed by PRN of the same register outputs the value, when neither faults. -/
def Obligations.LdiThenPrnOutputsValue : Prop :=
  ∀ (a v : Byte) (s t u : State), s.engine = .running → exec (.ldi a v) s = .next t → t.engine = .running →
    exec (.prn a) t = .next u → u.engine = .running → u.out = s.out ++ [v]

/-- 44_branch_halt.md R182, R184, 41_alu.md R122: after a CMP that did not fault, JEQ is taken exactly when the two
registers were equal, and JNE exactly when they were not. -/
def Obligations.CmpDecidesBranches : Prop :=
  ∀ (a b d : Byte) (s t : State) (ha : a.toNat < 8) (hb : b.toNat < 8) (hd : d.toNat < 8), s.engine = .running →
    exec (.cmp a b) s = .next t → t.engine = .running →
    (s.reg ⟨a.toNat, ha⟩ = s.reg ⟨b.toNat, hb⟩ →
      exec (.jeq d) t = .next { t with pc := t.reg ⟨d.toNat, hd⟩ } ∧
      (t.pc.toNat + 2 ≤ 255 → exec (.jne d) t = .next { t with pc := t.pc + 2 })) ∧
    (s.reg ⟨a.toNat, ha⟩ ≠ s.reg ⟨b.toNat, hb⟩ →
      exec (.jne d) t = .next { t with pc := t.reg ⟨d.toNat, hd⟩ } ∧
      (t.pc.toNat + 2 ≤ 255 → exec (.jeq d) t = .next { t with pc := t.pc + 2 }))

/-- 20_memory.md R63, 43_stack_call.md R163, R165: the byte a PUSH or a CALL stores is what the next opcode or operand
fetch of that address reads. For PUSH R7 it is the decremented SP, by the statement order of log entry 15. -/
def Obligations.StoredByteIsFetched : Prop :=
  ∀ (i : Instr) (a : Byte) (s t u : State) (ha : a.toNat < 8), i ∈ [.push a, .call a] → s.engine = .running →
    exec i s = .next t → t.engine = .running → u.mem = t.mem →
    ∃ v, (i = .push a → v = if a = 7 then s.sp - 1 else s.reg ⟨a.toNat, ha⟩) ∧ (i = .call a → v = s.pc + 2) ∧
      (u.pc = t.sp → ∃ w, u.fetchOpcode = .ok (v, w)) ∧
      (∀ k, u.pc.toNat + k = t.sp.toNat → ∃ w, u.opByte k = .ok (v, w))

/-! ### Reset and load -/

/-- 70_reset_and_hazards.md R232, R233: a launch writes the image at 0..n-1 of the reset state and leaves every other cell
without a value. -/
def Obligations.LaunchWritesImage : Prop :=
  ∀ (cfg : Config) (image : List Byte), image.length ≤ 256 →
    ∃ s, launch cfg image = .next s ∧ s = { State.resetWith cfg with mem := s.mem } ∧
      (∀ (k : Nat) (h : k < image.length), s.cell k = some image[k]) ∧ ∀ k, image.length ≤ k → s.cell k = none

/-- 70_reset_and_hazards.md R232: a longer image is refused, and so is every load once a step has been taken. -/
def Obligations.LoadIsRefused : Prop :=
  (∀ (cfg : Config) (image : List Byte), 256 < image.length →
    launch cfg image = .refused (.imageTooLong image.length)) ∧
  ∀ (s t : State) (image : List Byte), step s = .next t → load image t = .refused .loadAfterStart

/-- 70_reset_and_hazards.md R230: what reset leaves, from any engine state; no step leaves Halted or Faulted. -/
def Obligations.ResetValues : Prop :=
  ∀ s : State,
    (∀ j : Fin 8, j.val < 7 → (hostReset s).reg j = 0) ∧ (hostReset s).sp = s.cfg.spReset ∧ (hostReset s).pc = 0 ∧
      (hostReset s).fl = none ∧ (∀ addr, (hostReset s).cell addr = none) ∧ (hostReset s).engine = .running ∧
      (hostReset s).out = [] ∧ (hostReset s).fault = none ∧ (hostReset s).cfg = s.cfg ∧
      (s.engine ≠ .running → ∀ t, step s ≠ .next t) ∧ State.reset.sp = 0xFF ∧ State.reset.pc = 0
end

