-- ==== Sys2Proof/Laws/Decode.lean ====
section
/-! SUPPORT. What the decoder's table search answers, and the encoder's parts. -/

namespace Sys2Proof

/-- Every row is in the list of rows. -/
theorem Mnemonic.mem_all (m : Mnemonic) : m ∈ Mnemonic.all := by cases m <;> decide

/-- A row found for an opcode byte is dispatched and has that byte as its value (30_encoding.md R76). -/
theorem decodeOpcode_some {cfg : Config} {op : Byte} {m : Mnemonic} (h : decodeOpcode cfg op = some m) :
    cfg.dispatches m = true ∧ cfg.opcodes.get m = op := by
  have := List.find?_some h
  simpa using this

/-- No row is found exactly when no dispatched row has that value (30_encoding.md R76, R77). -/
theorem decodeOpcode_none {cfg : Config} {op : Byte} :
    decodeOpcode cfg op = none ↔ ∀ m, cfg.dispatches m = true → cfg.opcodes.get m ≠ op := by
  simp [decodeOpcode, Mnemonic.mem_all]

/-- With distinct values, two rows with one value are one row (30_encoding.md R76). -/
theorem OpcodeMap.get_injective {o : OpcodeMap} (h : o.distinct = true) {m n : Mnemonic} (he : o.get m = o.get n) :
    m = n :=
  List.inj_on_of_nodup_map (of_decide_eq_true h) (Mnemonic.mem_all m) (Mnemonic.mem_all n) he

theorem Config.distinct_of_wellFormed {cfg : Config} (h : cfg.wellFormed = true) : cfg.opcodes.distinct = true := by
  simp only [Config.wellFormed, Bool.and_eq_true] at h
  exact h.1

/-- With distinct values a dispatched row's value decodes to that row (30_encoding.md R76). -/
theorem decodeOpcode_get {cfg : Config} (h : cfg.opcodes.distinct = true) {m : Mnemonic} (hm : cfg.dispatches m = true) :
    decodeOpcode cfg (cfg.opcodes.get m) = some m := by
  cases hd : decodeOpcode cfg (cfg.opcodes.get m) with
  | none => exact absurd rfl (decodeOpcode_none.mp hd m hm)
  | some n => rw [OpcodeMap.get_injective h (decodeOpcode_some hd).2]

/-- Building an instruction of a row gives that row (30_encoding.md R71). -/
@[simp] theorem Mnemonic.build_mnemonic (m : Mnemonic) (a b : Byte) : (m.build a b).mnemonic = m := by cases m <;> rfl

/-- An instruction has as many operand bytes as its row's format (30_encoding.md R71). -/
@[simp] theorem Instr.operands_length (i : Instr) : i.operands.length = i.mnemonic.format.operandCount := by
  cases i <;> rfl

/-- The operand bytes of an instruction built from a row (30_encoding.md R71). -/
theorem Mnemonic.build_operands (m : Mnemonic) (a b : Byte) :
    (m.build a b).operands = match m.format with
      | .f0 => []
      | .f1r => [a]
      | .f2rr => [a, b]
      | .f2ri => [a, b] := by cases m <;> rfl

theorem encode_length (cfg : Config) (i : Instr) : (encode cfg i).length = i.mnemonic.length := by
  simp [encode, Mnemonic.length]

end Sys2Proof
end

