-- ==== Sys2Proof/Laws/Memory.lean ====
section
/-! SUPPORT. The laws of memory: reading after a write, and the canonical form. -/

namespace Sys2Proof.Machine

@[simp] theorem Memory.read_nil (addr : Nat) : Memory.read [] addr = none := rfl

/-- A read after a write to the same address gives the byte written; any other address reads as before (20_memory.md R54). -/
@[simp] theorem Memory.read_write (m : Memory) (k : Nat) (v : Byte) (addr : Nat) :
    (m.write k v).read addr = if addr = k then some v else m.read addr := by
  induction m with
  | nil => simp [Memory.write, Memory.read]
  | cons c rest ih =>
    obtain ⟨j, w⟩ := c
    rcases Nat.lt_trichotomy k j with h | h | h
    · simp [Memory.write, Memory.read, h]
    · subst h
      simp only [Memory.write, Memory.read, lt_irrefl, if_false, if_true]
      split_ifs <;> rfl
    · have h1 : ¬k < j := by omega
      have h2 : ¬k = j := by omega
      simp only [Memory.write, Memory.read, h1, h2, if_false, ih]
      by_cases hj : addr = j <;> simp [hj, Ne.symm h2]

/-- The canonical form is monotone in its lower bound. -/
theorem Memory.risingFrom_mono {m : Memory} {low low' : Nat} (h : m.risingFrom low = true) (hl : low' ≤ low) :
    m.risingFrom low' = true := by
  cases m with
  | nil => rfl
  | cons c rest =>
    simp only [Memory.risingFrom, Bool.and_eq_true, decide_eq_true_eq] at h ⊢
    exact ⟨⟨by omega, h.1.2⟩, h.2⟩

/-- An address below the lower bound is not listed. -/
theorem Memory.read_eq_none_of_risingFrom {m : Memory} {low addr : Nat} (h : m.risingFrom low = true) (ha : addr < low) :
    m.read addr = none := by
  induction m generalizing low with
  | nil => rfl
  | cons c rest ih =>
    obtain ⟨k, v⟩ := c
    simp only [Memory.risingFrom, Bool.and_eq_true, decide_eq_true_eq] at h
    rw [Memory.read, if_neg (by omega)]
    exact ih h.2 (by omega)

/-- Only the addresses 0..255 are ever listed. -/
theorem Memory.read_eq_none_of_wf {m : Memory} {addr : Nat} (h : m.wf = true) (ha : memSize ≤ addr) :
    m.read addr = none := by
  have key : ∀ low, m.risingFrom low = true → m.read addr = none := by
    clear h
    induction m with
    | nil => intro _ _; rfl
    | cons c rest ih =>
      obtain ⟨k, v⟩ := c
      intro low h
      simp only [Memory.risingFrom, Bool.and_eq_true, decide_eq_true_eq] at h
      rw [Memory.read, if_neg (by omega)]
      exact ih _ h.2
  exact key 0 h

theorem Memory.write_risingFrom {m : Memory} {low k : Nat} {v : Byte} (h : m.risingFrom low = true) (hl : low ≤ k)
    (hk : k < memSize) : (m.write k v).risingFrom low = true := by
  induction m generalizing low with
  | nil => simp [Memory.write, Memory.risingFrom, hl, hk]
  | cons c rest ih =>
    obtain ⟨j, w⟩ := c
    simp only [Memory.risingFrom, Bool.and_eq_true, decide_eq_true_eq] at h
    simp only [Memory.write]
    split_ifs with h1 h2
    · simp only [Memory.risingFrom, Bool.and_eq_true, decide_eq_true_eq]
      exact ⟨⟨hl, hk⟩, ⟨by omega, h.1.2⟩, h.2⟩
    · subst h2
      simp only [Memory.risingFrom, Bool.and_eq_true, decide_eq_true_eq]
      exact ⟨⟨hl, hk⟩, h.2⟩
    · simp only [Memory.risingFrom, Bool.and_eq_true, decide_eq_true_eq]
      exact ⟨h.1, ih h.2 (by omega)⟩

/-- A write of a cell 0..255 keeps the canonical form. -/
theorem Memory.write_wf {m : Memory} {k : Nat} {v : Byte} (h : m.wf = true) (hk : k < memSize) :
    (m.write k v).wf = true := Memory.write_risingFrom h (Nat.zero_le k) hk

/-- Writing bytes that fit keeps the canonical form. -/
theorem Memory.writeBytes_wf {m : Memory} {addr : Nat} {bytes : List Byte} (h : m.wf = true)
    (hk : addr + bytes.length ≤ memSize) : (m.writeBytes addr bytes).wf = true := by
  induction bytes generalizing m addr with
  | nil => exact h
  | cons v rest ih =>
    simp only [List.length_cons] at hk
    exact ih (Memory.write_wf h (by omega)) (by omega)

/-- What an address reads as after bytes have been written from `addr` on. -/
theorem Memory.read_writeBytes (m : Memory) (addr : Nat) (bytes : List Byte) (k : Nat) :
    (m.writeBytes addr bytes).read k
      = if addr ≤ k ∧ k < addr + bytes.length then bytes[k - addr]? else m.read k := by
  induction bytes generalizing m addr with
  | nil => simp [Memory.writeBytes]
  | cons v rest ih =>
    simp only [Memory.writeBytes, ih, Memory.read_write, List.length_cons]
    by_cases hk : k = addr
    · subst hk; simp
    · by_cases h : addr + 1 ≤ k ∧ k < addr + 1 + rest.length
      · rw [if_pos h, if_pos (by omega), show k - addr = (k - (addr + 1)) + 1 by omega, List.getElem?_cons_succ]
      · rw [if_neg h, if_neg hk, if_neg (by omega)]

/-- Canonical memories that read alike are equal: equal memories are equal data. -/
theorem Memory.ext_of_wf {m n : Memory} (hm : m.wf = true) (hn : n.wf = true) (h : ∀ addr, m.read addr = n.read addr) :
    m = n := by
  have key : ∀ (m n : Memory) low low', m.risingFrom low = true → n.risingFrom low' = true →
      (∀ addr, m.read addr = n.read addr) → m = n := by
    intro m
    induction m with
    | nil =>
      intro n low low' _ _ h
      cases n with
      | nil => rfl
      | cons c rest => have := h c.1; simp [Memory.read] at this
    | cons c rest ih =>
      obtain ⟨k, v⟩ := c
      intro n low low' hm hn h
      cases n with
      | nil => have := h k; simp [Memory.read] at this
      | cons d rest' =>
        obtain ⟨j, w⟩ := d
        simp only [Memory.risingFrom, Bool.and_eq_true, decide_eq_true_eq] at hm hn
        have hkj : k = j := by
          rcases Nat.lt_trichotomy k j with hlt | heq | hgt
          · have := h k
            rw [Memory.read, if_pos rfl, Memory.read, if_neg (by omega),
              Memory.read_eq_none_of_risingFrom hn.2 (by omega)] at this
            cases this
          · exact heq
          · have := h j
            rw [Memory.read, if_neg (by omega), Memory.read_eq_none_of_risingFrom hm.2 (by omega), Memory.read,
              if_pos rfl] at this
            cases this
        subst hkj
        have hv : v = w := by simpa [Memory.read] using h k
        subst hv
        rw [ih rest' _ _ hm.2 hn.2]
        intro addr
        by_cases ha : addr = k
        · subst ha
          rw [Memory.read_eq_none_of_risingFrom hm.2 (Nat.lt_succ_self _),
            Memory.read_eq_none_of_risingFrom hn.2 (Nat.lt_succ_self _)]
        · have := h addr
          rwa [Memory.read, if_neg ha, Memory.read, if_neg ha] at this
  exact key m n 0 0 hm hn h

end Sys2Proof.Machine
end

