-- ==== Sys2Proof/Laws/State.lean ====
section
/-! SUPPORT. What every update of the state does to every field, and to what is read through a register or a cell. -/

namespace Sys2Proof.Machine

variable (s : State)

/-! ### setReg -/

@[simp] theorem State.setReg_regs (i : Fin 8) (v : Byte) : (s.setReg i v).regs = s.regs.set i.val v i.isLt := rfl
@[simp] theorem State.setReg_pc (i : Fin 8) (v : Byte) : (s.setReg i v).pc = s.pc := rfl
@[simp] theorem State.setReg_fl (i : Fin 8) (v : Byte) : (s.setReg i v).fl = s.fl := rfl
@[simp] theorem State.setReg_mem (i : Fin 8) (v : Byte) : (s.setReg i v).mem = s.mem := rfl
@[simp] theorem State.setReg_engine (i : Fin 8) (v : Byte) : (s.setReg i v).engine = s.engine := rfl
@[simp] theorem State.setReg_out (i : Fin 8) (v : Byte) : (s.setReg i v).out = s.out := rfl
@[simp] theorem State.setReg_fault (i : Fin 8) (v : Byte) : (s.setReg i v).fault = s.fault := rfl
@[simp] theorem State.setReg_ir (i : Fin 8) (v : Byte) : (s.setReg i v).ir = s.ir := rfl
@[simp] theorem State.setReg_mar (i : Fin 8) (v : Byte) : (s.setReg i v).mar = s.mar := rfl
@[simp] theorem State.setReg_mdr (i : Fin 8) (v : Byte) : (s.setReg i v).mdr = s.mdr := rfl
@[simp] theorem State.setReg_cfg (i : Fin 8) (v : Byte) : (s.setReg i v).cfg = s.cfg := rfl
@[simp] theorem State.setReg_draws (i : Fin 8) (v : Byte) : (s.setReg i v).draws = s.draws := rfl
@[simp] theorem State.setReg_cell (i : Fin 8) (v : Byte) (addr : Nat) : (s.setReg i v).cell addr = s.cell addr := rfl

/-! ### setSp -/

@[simp] theorem State.setSp_regs (v : Byte) : (s.setSp v).regs = s.regs.set spIndex.val v spIndex.isLt := rfl
@[simp] theorem State.setSp_pc (v : Byte) : (s.setSp v).pc = s.pc := rfl
@[simp] theorem State.setSp_fl (v : Byte) : (s.setSp v).fl = s.fl := rfl
@[simp] theorem State.setSp_mem (v : Byte) : (s.setSp v).mem = s.mem := rfl
@[simp] theorem State.setSp_engine (v : Byte) : (s.setSp v).engine = s.engine := rfl
@[simp] theorem State.setSp_out (v : Byte) : (s.setSp v).out = s.out := rfl
@[simp] theorem State.setSp_fault (v : Byte) : (s.setSp v).fault = s.fault := rfl
@[simp] theorem State.setSp_ir (v : Byte) : (s.setSp v).ir = s.ir := rfl
@[simp] theorem State.setSp_mar (v : Byte) : (s.setSp v).mar = s.mar := rfl
@[simp] theorem State.setSp_mdr (v : Byte) : (s.setSp v).mdr = s.mdr := rfl
@[simp] theorem State.setSp_cfg (v : Byte) : (s.setSp v).cfg = s.cfg := rfl
@[simp] theorem State.setSp_draws (v : Byte) : (s.setSp v).draws = s.draws := rfl
@[simp] theorem State.setSp_cell (v : Byte) (addr : Nat) : (s.setSp v).cell addr = s.cell addr := rfl

/-! ### setPc -/

@[simp] theorem State.setPc_regs (v : Byte) : (s.setPc v).regs = s.regs := rfl
@[simp] theorem State.setPc_pc (v : Byte) : (s.setPc v).pc = v := rfl
@[simp] theorem State.setPc_fl (v : Byte) : (s.setPc v).fl = s.fl := rfl
@[simp] theorem State.setPc_mem (v : Byte) : (s.setPc v).mem = s.mem := rfl
@[simp] theorem State.setPc_engine (v : Byte) : (s.setPc v).engine = s.engine := rfl
@[simp] theorem State.setPc_out (v : Byte) : (s.setPc v).out = s.out := rfl
@[simp] theorem State.setPc_fault (v : Byte) : (s.setPc v).fault = s.fault := rfl
@[simp] theorem State.setPc_ir (v : Byte) : (s.setPc v).ir = s.ir := rfl
@[simp] theorem State.setPc_mar (v : Byte) : (s.setPc v).mar = s.mar := rfl
@[simp] theorem State.setPc_mdr (v : Byte) : (s.setPc v).mdr = s.mdr := rfl
@[simp] theorem State.setPc_cfg (v : Byte) : (s.setPc v).cfg = s.cfg := rfl
@[simp] theorem State.setPc_draws (v : Byte) : (s.setPc v).draws = s.draws := rfl
@[simp] theorem State.setPc_reg (v : Byte) (j : Fin 8) : (s.setPc v).reg j = s.reg j := rfl
@[simp] theorem State.setPc_sp (v : Byte) : (s.setPc v).sp = s.sp := rfl
@[simp] theorem State.setPc_cell (v : Byte) (addr : Nat) : (s.setPc v).cell addr = s.cell addr := rfl

/-! ### setFl -/

@[simp] theorem State.setFl_regs (v : Byte) : (s.setFl v).regs = s.regs := rfl
@[simp] theorem State.setFl_pc (v : Byte) : (s.setFl v).pc = s.pc := rfl
@[simp] theorem State.setFl_fl (v : Byte) : (s.setFl v).fl = some v := rfl
@[simp] theorem State.setFl_mem (v : Byte) : (s.setFl v).mem = s.mem := rfl
@[simp] theorem State.setFl_engine (v : Byte) : (s.setFl v).engine = s.engine := rfl
@[simp] theorem State.setFl_out (v : Byte) : (s.setFl v).out = s.out := rfl
@[simp] theorem State.setFl_fault (v : Byte) : (s.setFl v).fault = s.fault := rfl
@[simp] theorem State.setFl_ir (v : Byte) : (s.setFl v).ir = s.ir := rfl
@[simp] theorem State.setFl_mar (v : Byte) : (s.setFl v).mar = s.mar := rfl
@[simp] theorem State.setFl_mdr (v : Byte) : (s.setFl v).mdr = s.mdr := rfl
@[simp] theorem State.setFl_cfg (v : Byte) : (s.setFl v).cfg = s.cfg := rfl
@[simp] theorem State.setFl_draws (v : Byte) : (s.setFl v).draws = s.draws := rfl
@[simp] theorem State.setFl_reg (v : Byte) (j : Fin 8) : (s.setFl v).reg j = s.reg j := rfl
@[simp] theorem State.setFl_sp (v : Byte) : (s.setFl v).sp = s.sp := rfl
@[simp] theorem State.setFl_cell (v : Byte) (addr : Nat) : (s.setFl v).cell addr = s.cell addr := rfl

/-! ### emit -/

@[simp] theorem State.emit_regs (v : Byte) : (s.emit v).regs = s.regs := rfl
@[simp] theorem State.emit_pc (v : Byte) : (s.emit v).pc = s.pc := rfl
@[simp] theorem State.emit_fl (v : Byte) : (s.emit v).fl = s.fl := rfl
@[simp] theorem State.emit_mem (v : Byte) : (s.emit v).mem = s.mem := rfl
@[simp] theorem State.emit_engine (v : Byte) : (s.emit v).engine = s.engine := rfl
@[simp] theorem State.emit_out (v : Byte) : (s.emit v).out = s.out ++ [v] := rfl
@[simp] theorem State.emit_fault (v : Byte) : (s.emit v).fault = s.fault := rfl
@[simp] theorem State.emit_ir (v : Byte) : (s.emit v).ir = s.ir := rfl
@[simp] theorem State.emit_mar (v : Byte) : (s.emit v).mar = s.mar := rfl
@[simp] theorem State.emit_mdr (v : Byte) : (s.emit v).mdr = s.mdr := rfl
@[simp] theorem State.emit_cfg (v : Byte) : (s.emit v).cfg = s.cfg := rfl
@[simp] theorem State.emit_draws (v : Byte) : (s.emit v).draws = s.draws := rfl
@[simp] theorem State.emit_reg (v : Byte) (j : Fin 8) : (s.emit v).reg j = s.reg j := rfl
@[simp] theorem State.emit_sp (v : Byte) : (s.emit v).sp = s.sp := rfl
@[simp] theorem State.emit_cell (v : Byte) (addr : Nat) : (s.emit v).cell addr = s.cell addr := rfl

/-! ### halt -/

@[simp] theorem State.halt_regs : s.halt.regs = s.regs := rfl
@[simp] theorem State.halt_pc : s.halt.pc = s.pc := rfl
@[simp] theorem State.halt_fl : s.halt.fl = s.fl := rfl
@[simp] theorem State.halt_mem : s.halt.mem = s.mem := rfl
@[simp] theorem State.halt_engine : s.halt.engine = .halted := rfl
@[simp] theorem State.halt_out : s.halt.out = s.out := rfl
@[simp] theorem State.halt_fault : s.halt.fault = s.fault := rfl
@[simp] theorem State.halt_ir : s.halt.ir = s.ir := rfl
@[simp] theorem State.halt_mar : s.halt.mar = s.mar := rfl
@[simp] theorem State.halt_mdr : s.halt.mdr = s.mdr := rfl
@[simp] theorem State.halt_cfg : s.halt.cfg = s.cfg := rfl
@[simp] theorem State.halt_draws : s.halt.draws = s.draws := rfl
@[simp] theorem State.halt_reg (j : Fin 8) : s.halt.reg j = s.reg j := rfl
@[simp] theorem State.halt_sp : s.halt.sp = s.sp := rfl
@[simp] theorem State.halt_cell (addr : Nat) : s.halt.cell addr = s.cell addr := rfl

/-! ### setIr -/

@[simp] theorem State.setIr_regs (v : Byte) : (s.setIr v).regs = s.regs := rfl
@[simp] theorem State.setIr_pc (v : Byte) : (s.setIr v).pc = s.pc := rfl
@[simp] theorem State.setIr_fl (v : Byte) : (s.setIr v).fl = s.fl := rfl
@[simp] theorem State.setIr_mem (v : Byte) : (s.setIr v).mem = s.mem := rfl
@[simp] theorem State.setIr_engine (v : Byte) : (s.setIr v).engine = s.engine := rfl
@[simp] theorem State.setIr_out (v : Byte) : (s.setIr v).out = s.out := rfl
@[simp] theorem State.setIr_fault (v : Byte) : (s.setIr v).fault = s.fault := rfl
@[simp] theorem State.setIr_ir (v : Byte) : (s.setIr v).ir = v := rfl
@[simp] theorem State.setIr_mar (v : Byte) : (s.setIr v).mar = s.mar := rfl
@[simp] theorem State.setIr_mdr (v : Byte) : (s.setIr v).mdr = s.mdr := rfl
@[simp] theorem State.setIr_cfg (v : Byte) : (s.setIr v).cfg = s.cfg := rfl
@[simp] theorem State.setIr_draws (v : Byte) : (s.setIr v).draws = s.draws := rfl
@[simp] theorem State.setIr_reg (v : Byte) (j : Fin 8) : (s.setIr v).reg j = s.reg j := rfl
@[simp] theorem State.setIr_sp (v : Byte) : (s.setIr v).sp = s.sp := rfl
@[simp] theorem State.setIr_cell (v : Byte) (addr : Nat) : (s.setIr v).cell addr = s.cell addr := rfl

/-! ### setLatches -/

@[simp] theorem State.setLatches_regs (p v : Byte) : (s.setLatches p v).regs = s.regs := rfl
@[simp] theorem State.setLatches_pc (p v : Byte) : (s.setLatches p v).pc = s.pc := rfl
@[simp] theorem State.setLatches_fl (p v : Byte) : (s.setLatches p v).fl = s.fl := rfl
@[simp] theorem State.setLatches_mem (p v : Byte) : (s.setLatches p v).mem = s.mem := rfl
@[simp] theorem State.setLatches_engine (p v : Byte) : (s.setLatches p v).engine = s.engine := rfl
@[simp] theorem State.setLatches_out (p v : Byte) : (s.setLatches p v).out = s.out := rfl
@[simp] theorem State.setLatches_fault (p v : Byte) : (s.setLatches p v).fault = s.fault := rfl
@[simp] theorem State.setLatches_ir (p v : Byte) : (s.setLatches p v).ir = s.ir := rfl
@[simp] theorem State.setLatches_mar (p v : Byte) : (s.setLatches p v).mar = p := rfl
@[simp] theorem State.setLatches_mdr (p v : Byte) : (s.setLatches p v).mdr = v := rfl
@[simp] theorem State.setLatches_cfg (p v : Byte) : (s.setLatches p v).cfg = s.cfg := rfl
@[simp] theorem State.setLatches_draws (p v : Byte) : (s.setLatches p v).draws = s.draws := rfl
@[simp] theorem State.setLatches_reg (p v : Byte) (j : Fin 8) : (s.setLatches p v).reg j = s.reg j := rfl
@[simp] theorem State.setLatches_sp (p v : Byte) : (s.setLatches p v).sp = s.sp := rfl
@[simp] theorem State.setLatches_cell (p v : Byte) (addr : Nat) : (s.setLatches p v).cell addr = s.cell addr := rfl

/-! ### setCell -/

@[simp] theorem State.setCell_regs (k : Nat) (v : Byte) : (s.setCell k v).regs = s.regs := rfl
@[simp] theorem State.setCell_pc (k : Nat) (v : Byte) : (s.setCell k v).pc = s.pc := rfl
@[simp] theorem State.setCell_fl (k : Nat) (v : Byte) : (s.setCell k v).fl = s.fl := rfl
@[simp] theorem State.setCell_mem (k : Nat) (v : Byte) : (s.setCell k v).mem = s.mem.write k v := rfl
@[simp] theorem State.setCell_engine (k : Nat) (v : Byte) : (s.setCell k v).engine = s.engine := rfl
@[simp] theorem State.setCell_out (k : Nat) (v : Byte) : (s.setCell k v).out = s.out := rfl
@[simp] theorem State.setCell_fault (k : Nat) (v : Byte) : (s.setCell k v).fault = s.fault := rfl
@[simp] theorem State.setCell_ir (k : Nat) (v : Byte) : (s.setCell k v).ir = s.ir := rfl
@[simp] theorem State.setCell_mar (k : Nat) (v : Byte) : (s.setCell k v).mar = s.mar := rfl
@[simp] theorem State.setCell_mdr (k : Nat) (v : Byte) : (s.setCell k v).mdr = s.mdr := rfl
@[simp] theorem State.setCell_cfg (k : Nat) (v : Byte) : (s.setCell k v).cfg = s.cfg := rfl
@[simp] theorem State.setCell_draws (k : Nat) (v : Byte) : (s.setCell k v).draws = s.draws := rfl
@[simp] theorem State.setCell_reg (k : Nat) (v : Byte) (j : Fin 8) : (s.setCell k v).reg j = s.reg j := rfl
@[simp] theorem State.setCell_sp (k : Nat) (v : Byte) : (s.setCell k v).sp = s.sp := rfl

/-! ### raise -/

@[simp] theorem State.raise_regs (c : Cause) (op : Option Byte) : (s.raise c op).regs = s.regs := rfl
@[simp] theorem State.raise_pc (c : Cause) (op : Option Byte) : (s.raise c op).pc = s.pc := rfl
@[simp] theorem State.raise_fl (c : Cause) (op : Option Byte) : (s.raise c op).fl = s.fl := rfl
@[simp] theorem State.raise_mem (c : Cause) (op : Option Byte) : (s.raise c op).mem = s.mem := rfl
@[simp] theorem State.raise_engine (c : Cause) (op : Option Byte) : (s.raise c op).engine = .faulted := rfl
@[simp] theorem State.raise_out (c : Cause) (op : Option Byte) : (s.raise c op).out = s.out := rfl
@[simp] theorem State.raise_fault (c : Cause) (op : Option Byte) : (s.raise c op).fault = some ⟨c, s.pc, op⟩ := rfl
@[simp] theorem State.raise_ir (c : Cause) (op : Option Byte) : (s.raise c op).ir = s.ir := rfl
@[simp] theorem State.raise_mar (c : Cause) (op : Option Byte) : (s.raise c op).mar = s.mar := rfl
@[simp] theorem State.raise_mdr (c : Cause) (op : Option Byte) : (s.raise c op).mdr = s.mdr := rfl
@[simp] theorem State.raise_cfg (c : Cause) (op : Option Byte) : (s.raise c op).cfg = s.cfg := rfl
@[simp] theorem State.raise_draws (c : Cause) (op : Option Byte) : (s.raise c op).draws = s.draws := rfl
@[simp] theorem State.raise_reg (c : Cause) (op : Option Byte) (j : Fin 8) : (s.raise c op).reg j = s.reg j := rfl
@[simp] theorem State.raise_sp (c : Cause) (op : Option Byte) : (s.raise c op).sp = s.sp := rfl
@[simp] theorem State.raise_cell (c : Cause) (op : Option Byte) (addr : Nat) : (s.raise c op).cell addr = s.cell addr := rfl

/-! ### settle -/

@[simp] theorem State.settle_regs : s.settle.regs = s.regs := rfl
@[simp] theorem State.settle_pc : s.settle.pc = s.pc := rfl
@[simp] theorem State.settle_fl : s.settle.fl = s.fl := rfl
@[simp] theorem State.settle_mem : s.settle.mem = s.mem := rfl
@[simp] theorem State.settle_engine : s.settle.engine = s.engine := rfl
@[simp] theorem State.settle_out : s.settle.out = s.out := rfl
@[simp] theorem State.settle_fault : s.settle.fault = s.fault := rfl
@[simp] theorem State.settle_ir : s.settle.ir = Config.freeByte s.draws := rfl
@[simp] theorem State.settle_mar : s.settle.mar = Config.freeByte (s.draws + 1) := rfl
@[simp] theorem State.settle_mdr : s.settle.mdr = Config.freeByte (s.draws + 2) := rfl
@[simp] theorem State.settle_cfg : s.settle.cfg = s.cfg := rfl
@[simp] theorem State.settle_draws : s.settle.draws = s.draws + 3 := rfl
@[simp] theorem State.settle_reg (j : Fin 8) : s.settle.reg j = s.reg j := rfl
@[simp] theorem State.settle_sp : s.settle.sp = s.sp := rfl
@[simp] theorem State.settle_cell (addr : Nat) : s.settle.cell addr = s.cell addr := rfl

/-! ### forgetLatches -/

@[simp] theorem State.forgetLatches_regs : s.forgetLatches.regs = s.regs := rfl
@[simp] theorem State.forgetLatches_pc : s.forgetLatches.pc = s.pc := rfl
@[simp] theorem State.forgetLatches_fl : s.forgetLatches.fl = s.fl := rfl
@[simp] theorem State.forgetLatches_mem : s.forgetLatches.mem = s.mem := rfl
@[simp] theorem State.forgetLatches_engine : s.forgetLatches.engine = s.engine := rfl
@[simp] theorem State.forgetLatches_out : s.forgetLatches.out = s.out := rfl
@[simp] theorem State.forgetLatches_fault : s.forgetLatches.fault = s.fault := rfl
@[simp] theorem State.forgetLatches_ir : s.forgetLatches.ir = 0 := rfl
@[simp] theorem State.forgetLatches_mar : s.forgetLatches.mar = 0 := rfl
@[simp] theorem State.forgetLatches_mdr : s.forgetLatches.mdr = 0 := rfl
@[simp] theorem State.forgetLatches_cfg : s.forgetLatches.cfg = s.cfg := rfl
@[simp] theorem State.forgetLatches_draws : s.forgetLatches.draws = 0 := rfl
@[simp] theorem State.forgetLatches_reg (j : Fin 8) : s.forgetLatches.reg j = s.reg j := rfl
@[simp] theorem State.forgetLatches_sp : s.forgetLatches.sp = s.sp := rfl
@[simp] theorem State.forgetLatches_cell (addr : Nat) : s.forgetLatches.cell addr = s.cell addr := rfl

/-! ### withFl -/

@[simp] theorem State.withFl_regs (f : Option Byte) : (s.withFl f).regs = s.regs := rfl
@[simp] theorem State.withFl_pc (f : Option Byte) : (s.withFl f).pc = s.pc := rfl
@[simp] theorem State.withFl_fl (f : Option Byte) : (s.withFl f).fl = f := rfl
@[simp] theorem State.withFl_mem (f : Option Byte) : (s.withFl f).mem = s.mem := rfl
@[simp] theorem State.withFl_engine (f : Option Byte) : (s.withFl f).engine = s.engine := rfl
@[simp] theorem State.withFl_out (f : Option Byte) : (s.withFl f).out = s.out := rfl
@[simp] theorem State.withFl_fault (f : Option Byte) : (s.withFl f).fault = s.fault := rfl
@[simp] theorem State.withFl_ir (f : Option Byte) : (s.withFl f).ir = s.ir := rfl
@[simp] theorem State.withFl_mar (f : Option Byte) : (s.withFl f).mar = s.mar := rfl
@[simp] theorem State.withFl_mdr (f : Option Byte) : (s.withFl f).mdr = s.mdr := rfl
@[simp] theorem State.withFl_cfg (f : Option Byte) : (s.withFl f).cfg = s.cfg := rfl
@[simp] theorem State.withFl_draws (f : Option Byte) : (s.withFl f).draws = s.draws := rfl
@[simp] theorem State.withFl_reg (f : Option Byte) (j : Fin 8) : (s.withFl f).reg j = s.reg j := rfl
@[simp] theorem State.withFl_sp (f : Option Byte) : (s.withFl f).sp = s.sp := rfl
@[simp] theorem State.withFl_cell (f : Option Byte) (addr : Nat) : (s.withFl f).cell addr = s.cell addr := rfl

/-! ### Registers read after a register write -/

/-- A register read after a register write gives the value written there, and any other register is untouched. -/
@[simp] theorem State.setReg_reg (i : Fin 8) (v : Byte) (j : Fin 8) :
    (s.setReg i v).reg j = if i = j then v else s.reg j := by
  simp [State.setReg, State.reg, Vector.get_eq_getElem, Vector.getElem_set, Fin.ext_iff]

@[simp] theorem State.setSp_reg (v : Byte) (j : Fin 8) :
    (s.setSp v).reg j = if spIndex = j then v else s.reg j := s.setReg_reg spIndex v j

@[simp] theorem State.setSp_sp (v : Byte) : (s.setSp v).sp = v := by simp [State.sp]

theorem State.setReg_sp (i : Fin 8) (v : Byte) :
    (s.setReg i v).sp = if i = spIndex then v else s.sp := s.setReg_reg i v spIndex

/-- Two states with the same registers and the same other fields are one state. -/
theorem State.regs_ext {s t : State} (h : ∀ j, s.reg j = t.reg j) : s.regs = t.regs := by
  apply Vector.ext
  intro k hk
  exact h ⟨k, hk⟩

/-- Two states agree up to the transient latches when every other field does (10_state.md R32). -/
theorem State.forgetLatches_eq_iff {s t : State} :
    s.forgetLatches = t.forgetLatches ↔ s.regs = t.regs ∧ s.pc = t.pc ∧ s.fl = t.fl ∧ s.mem = t.mem ∧
      s.engine = t.engine ∧ s.out = t.out ∧ s.fault = t.fault ∧ s.cfg = t.cfg := by
  simp only [State.forgetLatches, State.mk.injEq, true_and, and_true]

end Sys2Proof.Machine
end

