-- ==== Sys2Proof/Laws/Ops.lean ====
section
/-! SUPPORT. For each shared operation, what it answers and when (20_memory.md, 40_dispatch.md, 41_alu.md, 43_stack_call.md). -/

namespace Sys2Proof.Machine

/-! ### Memory access -/

/-- Everything a successful MemRead does: a listed cell's byte, and the latches (20_memory.md R53). -/
theorem State.memRead_ok_iff {s t : State} {addr : Nat} {v : Byte} :
    s.memRead addr = .ok (v, t) ↔ addr ≤ 255 ∧ s.cell addr = some v ∧ t = s.setLatches (BitVec.ofNat 8 addr) v := by
  unfold State.memRead
  by_cases h : addr > 255
  · rw [if_pos h]; constructor
    · intro hc; cases hc
    · intro hc; omega
  · rw [if_neg h]
    cases hc : s.cell addr with
    | none => simp
    | some w =>
      constructor
      · intro he
        cases he
        exact ⟨by omega, rfl, rfl⟩
      · rintro ⟨-, he, rfl⟩
        cases he
        rfl

/-- MemRead at a byte address (20_memory.md R53). -/
theorem State.memRead_byte_some {s : State} {p v : Byte} (h : s.cell p.toNat = some v) :
    s.memRead p.toNat = .ok (v, s.setLatches p v) := by
  rw [State.memRead_ok_iff]
  exact ⟨by have := p.isLt; omega, h, by simp⟩

/-- MemRead at a byte address whose cell holds no value (20_memory.md R53, 60_exceptions.md R208). -/
theorem State.memRead_byte_none {s : State} {p : Byte} (h : s.cell p.toNat = none) :
    s.memRead p.toNat = .error (.uninitializedRead p.toNat) := by
  have := p.isLt
  simp only [State.memRead, if_neg (show ¬ p.toNat > 255 by omega), h]

/-- MemWrite at a byte address always completes (20_memory.md R54). -/
@[simp] theorem State.memWrite_byte (s : State) (p v : Byte) :
    s.memWrite p.toNat v = .ok ((s.setLatches p v).setCell p.toNat v) := by
  have := p.isLt
  simp [State.memWrite, show ¬ 255 < p.toNat by omega]

@[simp] theorem State.setCell_cell (s : State) (k : Nat) (v : Byte) (addr : Nat) :
    (s.setCell k v).cell addr = if addr = k then some v else s.cell addr := Memory.read_write s.mem k v addr

/-! ### The next pc and SP -/

/-- A sequential next pc that exists is the pc plus the length, without a wrap (40_dispatch.md R97). -/
theorem State.seqPc_ok_iff {s : State} {len : Nat} {npc : Byte} :
    s.seqPc len = .ok npc ↔ s.pc.toNat + len ≤ 255 ∧ npc = s.pc + BitVec.ofNat 8 len := by
  have e : BitVec.ofNat 8 (s.pc.toNat + len) = s.pc + BitVec.ofNat 8 len := by simp [BitVec.ofNat_add]
  unfold State.seqPc
  split_ifs with h
  · constructor
    · intro hc; cases hc
    · rintro ⟨h', -⟩; omega
  · rw [← e]
    constructor
    · intro hc; cases hc; exact ⟨by omega, rfl⟩
    · rintro ⟨-, rfl⟩; rfl

theorem State.seqPc_ok {s : State} {len : Nat} (h : s.pc.toNat + len ≤ 255) :
    s.seqPc len = .ok (s.pc + BitVec.ofNat 8 len) := State.seqPc_ok_iff.mpr ⟨h, rfl⟩

theorem State.seqPc_error {s : State} {len : Nat} (h : 255 < s.pc.toNat + len) :
    s.seqPc len = .error (.outOfBounds .pc (s.pc.toNat + len : Nat)) := if_pos h

theorem State.seqPc_error_code {s : State} {len : Nat} {c : Cause} (h : s.seqPc len = .error c) :
    c = .outOfBounds .pc (s.pc.toNat + len : Nat) := by
  unfold State.seqPc at h
  split_ifs at h
  cases h; rfl

theorem spDown_ok_iff {sp r : Byte} : spDown sp = .ok r ↔ sp ≠ 0 ∧ r = sp - 1 := by
  unfold spDown
  split_ifs with h
  · simp [h]
  · constructor
    · intro hc; cases hc; exact ⟨h, rfl⟩
    · rintro ⟨-, rfl⟩; rfl

theorem spDown_ok {sp : Byte} (h : sp ≠ 0) : spDown sp = .ok (sp - 1) := spDown_ok_iff.mpr ⟨h, rfl⟩

theorem spDown_error_cause {sp : Byte} {c : Cause} (h : spDown sp = .error c) : c = .outOfBounds .sp (-1) := by
  unfold spDown at h
  split_ifs at h
  cases h; rfl

theorem spUp_ok_iff {sp r : Byte} : spUp sp = .ok r ↔ sp ≠ 255 ∧ r = sp + 1 := by
  unfold spUp
  split_ifs with h
  · simp [h]
  · constructor
    · intro hc; cases hc; exact ⟨h, rfl⟩
    · rintro ⟨-, rfl⟩; rfl

theorem spUp_ok {sp : Byte} (h : sp ≠ 255) : spUp sp = .ok (sp + 1) := spUp_ok_iff.mpr ⟨h, rfl⟩

theorem spUp_error_cause {sp : Byte} {c : Cause} (h : spUp sp = .error c) : c = .outOfBounds .sp 256 := by
  unfold spUp at h
  split_ifs at h
  cases h; rfl

theorem memRead_error_code {s : State} {addr : Nat} {c : Cause} (h : s.memRead addr = .error c) :
    c = .outOfBounds .addr addr ∨ c = .uninitializedRead addr := by
  unfold State.memRead at h
  split_ifs at h with h1
  · cases h; exact .inl rfl
  · split at h
    · cases h; exact .inr rfl
    · cases h

/-! ### Register operands -/

/-- A register index below 8 names its register (40_dispatch.md R94). -/
theorem checkReg_ok {i : Byte} (h : i.toNat < 8) : checkReg i = .ok ⟨i.toNat, h⟩ := dif_pos h

/-- A register index of 8 or more is out of bounds (40_dispatch.md R94). -/
theorem checkReg_error {i : Byte} (h : 8 ≤ i.toNat) : checkReg i = .error (.outOfBounds .reg i.toNat) :=
  dif_neg (Nat.not_lt.mpr h)

theorem checkReg_ok_iff {i : Byte} {r : Fin 8} : checkReg i = .ok r ↔ i.toNat = r.val := by
  unfold checkReg
  split_ifs with h
  · simp [Fin.ext_iff]
  · have := r.isLt
    simp; omega

theorem checkReg_error_cause {i : Byte} {c : Cause} (h : checkReg i = .error c) : c = .outOfBounds .reg i.toNat := by
  unfold checkReg at h
  split_ifs at h
  cases h; rfl

theorem checkRegs_ok {a b : Byte} (ha : a.toNat < 8) (hb : b.toNat < 8) :
    checkRegs a b = .ok (⟨a.toNat, ha⟩, ⟨b.toNat, hb⟩) := by
  simp only [checkRegs, checkReg_ok ha, checkReg_ok hb]

theorem checkRegs_ok_iff {a b : Byte} {ra rb : Fin 8} :
    checkRegs a b = .ok (ra, rb) ↔ checkReg a = .ok ra ∧ checkReg b = .ok rb := by
  unfold checkRegs
  cases checkReg a <;> cases checkReg b <;> simp

/-- The first of two register operands that is out of bounds is the one reported (40_dispatch.md R94). -/
theorem checkRegs_error_cause {a b : Byte} {c : Cause} (h : checkRegs a b = .error c) :
    c = .outOfBounds .reg a.toNat ∨ c = .outOfBounds .reg b.toNat := by
  unfold checkRegs at h
  split at h
  · rename_i he
    cases h
    exact .inl (checkReg_error_cause he)
  · split at h
    · rename_i he
      cases h
      exact .inr (checkReg_error_cause he)
    · cases h

/-! ### FL -/

/-- CMP's value is one of the three legal ones (10_state.md R28). -/
theorem compareFlags_legal (a b : Byte) : flLegal (some (compareFlags a b)) := by
  unfold compareFlags flLegal
  rcases Nat.lt_trichotomy a.toNat b.toNat with h | h | h
  · have h1 : ¬ b.toNat < a.toNat := by omega
    have h2 : a ≠ b := by rintro rfl; omega
    simp [h, h1, h2]
  · obtain rfl := BitVec.eq_of_toNat_eq h
    simp
  · have h1 : ¬ a.toNat < b.toNat := by omega
    have h2 : a ≠ b := by rintro rfl; omega
    simp [h, h1, h2]

/-- Bit E of CMP's value says that the two bytes are equal (10_state.md R28). -/
@[simp] theorem flagE_compareFlags (a b : Byte) : flagE (compareFlags a b) = decide (a = b) := by
  unfold compareFlags flagE
  by_cases h : a = b <;> by_cases h1 : a.toNat < b.toNat <;> by_cases h2 : b.toNat < a.toNat <;> simp [h, h1, h2]

theorem State.readFl_ok_iff {s : State} {v : Byte} : s.readFl = .ok v ↔ s.fl = some v := by
  unfold State.readFl
  cases s.fl <;> simp

theorem State.readFl_error_cause {s : State} {c : Cause} (h : s.readFl = .error c) : c = .unsetFlags := by
  unfold State.readFl at h
  split at h <;> cases h
  rfl

/-! ### The ALU -/

theorem fit8_ok {mode : AluOverflow} {v : Int} (h : 0 ≤ v ∧ v ≤ 255) : fit8 mode v = .ok (BitVec.ofInt 8 v) := if_pos h

/-- Under `wrap` every result fits, as its residue (41_alu.md R111). -/
theorem fit8_wrap (v : Int) : fit8 .wrap v = .ok (BitVec.ofInt 8 v) := by
  unfold fit8
  split_ifs
  · rfl
  · simp only [Except.ok.injEq]
    apply BitVec.eq_of_toNat_eq
    simp only [BitVec.toNat_ofInt]
    norm_num

/-- When `Fit8` answers a byte it is the residue of the exact value, whatever the mode (41_alu.md R111). -/
theorem fit8_ok_of_mode {mode : AluOverflow} {v : Int} (h : mode = .wrap ∨ (0 ≤ v ∧ v ≤ 255)) :
    fit8 mode v = .ok (BitVec.ofInt 8 v) := by
  rcases h with rfl | h
  · exact fit8_wrap v
  · exact fit8_ok h

theorem fit8_error_iff {mode : AluOverflow} {v : Int} {c : Cause} :
    fit8 mode v = .error c ↔ mode = .fault ∧ ¬(0 ≤ v ∧ v ≤ 255) ∧ c = .aluOverflow v := by
  unfold fit8
  by_cases h : 0 ≤ v ∧ v ≤ 255
  · simp [h]
  · rw [if_neg h]
    cases mode <;> simp [h, eq_comm]

theorem fitResult_ok {mode : AluOverflow} {v : Int} (h : mode = .wrap ∨ (0 ≤ v ∧ v ≤ 255)) :
    fitResult mode v = .ok (.result (BitVec.ofInt 8 v)) := by
  simp only [fitResult, fit8_ok_of_mode h]

theorem fitResult_error_iff {mode : AluOverflow} {v : Int} {c : Cause} :
    fitResult mode v = .error c ↔ mode = .fault ∧ ¬(0 ≤ v ∧ v ≤ 255) ∧ c = .aluOverflow v := by
  rw [← fit8_error_iff]
  unfold fitResult
  cases fit8 mode v <;> simp

/-- `Fit8` of a natural number that is a byte already. -/
theorem fitResult_byte {mode : AluOverflow} {n : Nat} (h : n ≤ 255) :
    fitResult mode (n : Int) = .ok (.result (BitVec.ofNat 8 n)) := by
  rw [fitResult_ok (.inr ⟨Int.natCast_nonneg n, by exact_mod_cast h⟩)]
  simp

/-- The ALU's causes: an overflow under `fault`, a zero divisor, or a select outside the set (41_alu.md R111 to R113). -/
theorem alu_error_cases {mode : AluOverflow} {sel : AluSelect} {a b A B : Byte} {c : Cause}
    (h : alu mode sel a b A B = .error c) :
    (mode = .fault ∧ ∃ v : Int, c = .aluOverflow v ∧ ¬(0 ≤ v ∧ v ≤ 255)) ∨ (sel = .mod ∧ B = 0 ∧ c = .arithmeticFault a b) ∨
      ∃ n, sel = .outside n ∧ c = .aluOpFault n := by
  cases sel with
  | cmp => simp [alu] at h
  | outside n => exact .inr (.inr ⟨n, rfl, by simpa [alu, eq_comm] using h⟩)
  | mod =>
    simp only [alu] at h
    split_ifs at h with hB
    · exact .inr (.inl ⟨rfl, hB, by simpa [eq_comm] using h⟩)
    · obtain ⟨hm, hv, hc⟩ := fitResult_error_iff.mp h
      exact .inl ⟨hm, _, hc, hv⟩
  | _ =>
    obtain ⟨hm, hv, hc⟩ := fitResult_error_iff.mp h
    exact .inl ⟨hm, _, hc, hv⟩

/-- Only CMP writes FL, and CMP writes nothing else (41_alu.md R110, R112). -/
theorem alu_ok_cases {mode : AluOverflow} {sel : AluSelect} {a b A B : Byte} {r : AluOutput}
    (h : alu mode sel a b A B = .ok r) :
    (sel = .cmp ∧ r = .flags (compareFlags A B)) ∨ (sel ≠ .cmp ∧ ∃ v, r = .result v) := by
  have key : ∀ w : Int, fitResult mode w = .ok r → ∃ v, r = .result v := by
    intro w hw
    unfold fitResult at hw
    split at hw
    · cases hw
    · cases hw; exact ⟨_, rfl⟩
  cases sel with
  | cmp => exact .inl ⟨rfl, by simpa [alu, eq_comm] using h⟩
  | outside n => simp [alu] at h
  | mod =>
    simp only [alu] at h
    split_ifs at h
    exact .inr ⟨by simp, key _ h⟩
  | _ => exact .inr ⟨by simp, key _ h⟩

/-! ### How an instruction ends -/

@[simp] theorem State.conclude_ok (s : State) (m : Mnemonic) (t : State) : s.conclude m (.ok t) = .next t := rfl

@[simp] theorem State.conclude_error (s : State) (m : Mnemonic) (c : Cause) :
    s.conclude m (.error c) = .next (s.raise c (some (s.cfg.opcodes.get m))) := rfl

/-- An instruction either commits or takes a fault in the state it started from (60_exceptions.md R206). -/
theorem State.conclude_cases {s t : State} {m : Mnemonic} {r : Except Cause State} (h : s.conclude m r = .next t) :
    r = .ok t ∨ ∃ c, r = .error c ∧ t = s.raise c (some (s.cfg.opcodes.get m)) := by
  cases r with
  | ok u => cases h; exact .inl rfl
  | error c => cases h; exact .inr ⟨c, rfl, rfl⟩

end Sys2Proof.Machine
end

