-- ==== Sys2Proof/Laws/Exec.lean ====
section
/-! SUPPORT. For each shape of instruction, everything its checks and its commit can do; callers cite these and do not
unfold the meanings. -/

namespace Sys2Proof.Machine

/-- Everything a two-register ALU instruction commits (41_alu.md R120 to R129). -/
theorem State.aluTwo_ok_iff {s t : State} {sel : AluSelect} {a b : Byte} :
    s.aluTwo sel a b = .ok t ↔ ∃ ra rb r npc, checkReg a = .ok ra ∧ checkReg b = .ok rb ∧
      alu s.cfg.aluOverflow sel a b (s.reg ra) (s.reg rb) = .ok r ∧ s.seqPc 3 = .ok npc ∧ t = (s.writeAlu ra r).setPc npc := by
  unfold State.aluTwo
  cases hc : checkRegs a b with
  | error c =>
    simp only [reduceCtorEq, false_iff, not_exists, not_and]
    intro ra rb r npc ha hb
    rw [checkRegs_ok_iff.mpr ⟨ha, hb⟩] at hc
    cases hc
  | ok p =>
    obtain ⟨ra, rb⟩ := p
    obtain ⟨ha, hb⟩ := checkRegs_ok_iff.mp hc
    simp only [ha, hb, Except.ok.injEq]
    constructor
    · intro h
      split at h
      · cases h
      · split at h
        · cases h
        · cases h
          exact ⟨ra, rb, _, _, rfl, rfl, by assumption, by assumption, rfl⟩
    · rintro ⟨_, _, r, npc, rfl, rfl, hr, hp, rfl⟩
      simp only [hr, hp]

/-- Everything that can stop a two-register ALU instruction. -/
theorem State.aluTwo_error_cases {s : State} {sel : AluSelect} {a b : Byte} {c : Cause} (h : s.aluTwo sel a b = .error c) :
    checkRegs a b = .error c ∨ (∃ A B, alu s.cfg.aluOverflow sel a b A B = .error c) ∨ s.seqPc 3 = .error c := by
  unfold State.aluTwo at h
  split at h
  · cases h; exact .inl (by assumption)
  · split at h
    · cases h; exact .inr (.inl ⟨_, _, by assumption⟩)
    · split at h
      · cases h; exact .inr (.inr (by assumption))
      · cases h

/-- Everything NOT commits (41_alu.md R126). -/
theorem State.aluOne_ok_iff {s t : State} {sel : AluSelect} {a : Byte} :
    s.aluOne sel a = .ok t ↔ ∃ ra r npc, checkReg a = .ok ra ∧
      alu s.cfg.aluOverflow sel a a (s.reg ra) (s.reg ra) = .ok r ∧ s.seqPc 2 = .ok npc ∧ t = (s.writeAlu ra r).setPc npc := by
  unfold State.aluOne
  cases ha : checkReg a with
  | error c => simp
  | ok ra =>
    simp only [Except.ok.injEq]
    constructor
    · intro h
      split at h
      · cases h
      · split at h
        · cases h
        · cases h
          exact ⟨ra, _, _, rfl, by assumption, by assumption, rfl⟩
    · rintro ⟨_, r, npc, rfl, hr, hp, rfl⟩
      simp only [hr, hp]

/-- Everything that can stop NOT. -/
theorem State.aluOne_error_cases {s : State} {sel : AluSelect} {a : Byte} {c : Cause} (h : s.aluOne sel a = .error c) :
    checkReg a = .error c ∨ (∃ A, alu s.cfg.aluOverflow sel a a A A = .error c) ∨ s.seqPc 2 = .error c := by
  unfold State.aluOne at h
  split at h
  · cases h; exact .inl (by assumption)
  · split at h
    · cases h; exact .inr (.inl ⟨_, by assumption⟩)
    · split at h
      · cases h; exact .inr (.inr (by assumption))
      · cases h

/-- Everything LDI commits (42_ldi_prn.md R150). -/
theorem State.loadImmediate_ok_iff {s t : State} {a imm : Byte} :
    s.loadImmediate a imm = .ok t ↔ ∃ ra npc, checkReg a = .ok ra ∧ s.seqPc 3 = .ok npc ∧ t = (s.setReg ra imm).setPc npc := by
  unfold State.loadImmediate
  cases checkReg a <;> cases s.seqPc 3 <;> simp [eq_comm]

/-- Everything that can stop LDI. -/
theorem State.loadImmediate_error_cases {s : State} {a imm : Byte} {c : Cause} (h : s.loadImmediate a imm = .error c) :
    checkReg a = .error c ∨ s.seqPc 3 = .error c := by
  unfold State.loadImmediate at h
  revert h
  cases checkReg a <;> cases s.seqPc 3 <;> simp +contextual

/-- Everything PRN commits (42_ldi_prn.md R152). -/
theorem State.print_ok_iff {s t : State} {a : Byte} :
    s.print a = .ok t ↔ ∃ ra npc, checkReg a = .ok ra ∧ s.seqPc 2 = .ok npc ∧ t = (s.emit (s.reg ra)).setPc npc := by
  unfold State.print
  cases checkReg a <;> cases s.seqPc 2 <;> simp [eq_comm]

/-- Everything that can stop PRN. -/
theorem State.print_error_cases {s : State} {a : Byte} {c : Cause} (h : s.print a = .error c) :
    checkReg a = .error c ∨ s.seqPc 2 = .error c := by
  unfold State.print at h
  revert h
  cases checkReg a <;> cases s.seqPc 2 <;> simp +contextual

/-- A valid register operand names SP exactly when its byte is 7 (00_scope.md R7). -/
theorem mk_eq_spIndex_iff {a : Byte} (ha : a.toNat < 8) : (⟨a.toNat, ha⟩ : Fin 8) = spIndex ↔ a = 7 := by
  simp only [spIndex, Fin.ext_iff]
  constructor
  · intro h
    exact BitVec.eq_of_toNat_eq h
  · rintro rfl
    rfl

/-- Everything PUSH commits (43_stack_call.md R163). -/
theorem State.pushReg_ok_iff {s t : State} {a : Byte} :
    s.pushReg a = .ok t ↔ ∃ ra sp npc, checkReg a = .ok ra ∧ spDown s.sp = .ok sp ∧ s.seqPc 2 = .ok npc ∧
      t = (((s.setSp sp).setLatches sp (s.regAfterDown sp ra)).setCell sp.toNat (s.regAfterDown sp ra)).setPc npc := by
  unfold State.pushReg
  cases checkReg a <;> cases spDown s.sp <;> cases s.seqPc 2 <;> simp [eq_comm]

/-- Everything that can stop PUSH. -/
theorem State.pushReg_error_cases {s : State} {a : Byte} {c : Cause} (h : s.pushReg a = .error c) :
    checkReg a = .error c ∨ spDown s.sp = .error c ∨ s.seqPc 2 = .error c := by
  unfold State.pushReg at h
  revert h
  cases checkReg a <;> cases spDown s.sp <;> cases s.seqPc 2 <;> simp +contextual

/-- Everything CALL commits (43_stack_call.md R165). -/
theorem State.callReg_ok_iff {s t : State} {a : Byte} :
    s.callReg a = .ok t ↔ ∃ ra sp back, checkReg a = .ok ra ∧ spDown s.sp = .ok sp ∧ s.seqPc 2 = .ok back ∧
      t = (((s.setSp sp).setLatches sp back).setCell sp.toNat back).setPc (s.regAfterDown sp ra) := by
  unfold State.callReg
  cases checkReg a <;> cases spDown s.sp <;> cases s.seqPc 2 <;> simp [eq_comm]

/-- Everything that can stop CALL. -/
theorem State.callReg_error_cases {s : State} {a : Byte} {c : Cause} (h : s.callReg a = .error c) :
    checkReg a = .error c ∨ spDown s.sp = .error c ∨ s.seqPc 2 = .error c := by
  unfold State.callReg at h
  revert h
  cases checkReg a <;> cases spDown s.sp <;> cases s.seqPc 2 <;> simp +contextual

/-- Everything POP commits (43_stack_call.md R164). -/
theorem State.popReg_ok_iff {s t : State} {a : Byte} :
    s.popReg a = .ok t ↔ ∃ ra v sp npc, checkReg a = .ok ra ∧ s.cell s.sp.toNat = some v ∧
      spUp (if ra = spIndex then v else s.sp) = .ok sp ∧ s.seqPc 2 = .ok npc ∧
      t = (((s.setLatches s.sp v).setReg ra v).setSp sp).setPc npc := by
  unfold State.popReg
  cases ha : checkReg a with
  | error c => simp
  | ok ra =>
    cases hv : s.cell s.sp.toNat with
    | none => simp [State.memRead_byte_none hv]
    | some v =>
      simp only [State.memRead_byte_some hv, Except.ok.injEq, Option.some.injEq]
      cases hu : spUp (if ra = spIndex then v else s.sp) <;> cases hp : s.seqPc 2 <;>
        simp [hu, eq_comm]

/-- Everything that can stop POP. -/
theorem State.popReg_error_cases {s : State} {a : Byte} {c : Cause} (h : s.popReg a = .error c) :
    checkReg a = .error c ∨ s.memRead s.sp.toNat = .error c ∨ (∃ p, spUp p = .error c) ∨ s.seqPc 2 = .error c := by
  unfold State.popReg at h
  split at h
  · cases h; exact .inl (by assumption)
  · split at h
    · cases h; exact .inr (.inl (by assumption))
    · split at h
      · cases h; exact .inr (.inr (.inl ⟨_, by assumption⟩))
      · split at h
        · cases h; exact .inr (.inr (.inr (by assumption)))
        · cases h

/-- Everything RET commits (43_stack_call.md R166). -/
theorem State.returnFromCall_ok_iff {s t : State} :
    s.returnFromCall = .ok t ↔ ∃ v sp, s.cell s.sp.toNat = some v ∧ spUp s.sp = .ok sp ∧
      t = ((s.setLatches s.sp v).setPc v).setSp sp := by
  unfold State.returnFromCall
  cases hv : s.cell s.sp.toNat with
  | none => simp [State.memRead_byte_none hv]
  | some v =>
    simp only [State.memRead_byte_some hv, Option.some.injEq]
    cases hu : spUp s.sp <;> simp [eq_comm]

/-- Everything that can stop RET. -/
theorem State.returnFromCall_error_cases {s : State} {c : Cause} (h : s.returnFromCall = .error c) :
    s.memRead s.sp.toNat = .error c ∨ spUp s.sp = .error c := by
  unfold State.returnFromCall at h
  split at h
  · cases h; exact .inl (by assumption)
  · split at h
    · cases h; exact .inr (by assumption)
    · cases h

/-- Everything JMP commits (44_branch_halt.md R181). -/
theorem State.jump_ok_iff {s t : State} {a : Byte} :
    s.jump a = .ok t ↔ ∃ ra, checkReg a = .ok ra ∧ t = s.setPc (s.reg ra) := by
  unfold State.jump
  cases checkReg a <;> simp [eq_comm]

/-- Everything that can stop JMP. -/
theorem State.jump_error_cases {s : State} {a : Byte} {c : Cause} (h : s.jump a = .error c) : checkReg a = .error c := by
  unfold State.jump at h
  revert h
  cases checkReg a <;> simp +contextual

/-- Everything a conditional branch commits (44_branch_halt.md R182, R184). -/
theorem State.branch_ok_iff {s t : State} {wanted : Bool} {a : Byte} :
    s.branch wanted a = .ok t ↔ ∃ ra fl, checkReg a = .ok ra ∧ s.fl = some fl ∧
      ((flagE fl = wanted ∧ t = s.setPc (s.reg ra)) ∨ (flagE fl ≠ wanted ∧ ∃ npc, s.seqPc 2 = .ok npc ∧ t = s.setPc npc)) := by
  unfold State.branch State.readFl
  cases checkReg a with
  | error c => simp
  | ok ra =>
    cases s.fl with
    | none => simp
    | some fl =>
      by_cases hw : flagE fl = wanted
      · simp [hw, eq_comm]
      · cases s.seqPc 2 <;> simp [hw, eq_comm (a := t)]

/-- Everything that can stop a conditional branch. -/
theorem State.branch_error_cases {s : State} {wanted : Bool} {a : Byte} {c : Cause} (h : s.branch wanted a = .error c) :
    checkReg a = .error c ∨ s.readFl = .error c ∨ s.seqPc 2 = .error c := by
  unfold State.branch at h
  split at h
  · cases h; exact .inl (by assumption)
  · split at h
    · cases h; exact .inr (.inl (by assumption))
    · split at h
      · cases h
      · split at h
        · cases h; exact .inr (.inr (by assumption))
        · cases h

/-! ### `exec`, one equation per instruction: the checks and the commit, concluded -/

/-- The checks and the commit of each instruction. -/
def State.effect (s : State) : Instr → Except Cause State
  | .hlt => .ok s.halt
  | .ret => s.returnFromCall
  | .push a => s.pushReg a
  | .pop a => s.popReg a
  | .prn a => s.print a
  | .call a => s.callReg a
  | .jmp a => s.jump a
  | .jeq a => s.branch true a
  | .jne a => s.branch false a
  | .not a => s.aluOne .not a
  | .ldi a imm => s.loadImmediate a imm
  | .add a b => s.aluTwo .add a b
  | .mul a b => s.aluTwo .mul a b
  | .mod a b => s.aluTwo .mod a b
  | .cmp a b => s.aluTwo .cmp a b
  | .and a b => s.aluTwo .and a b
  | .or a b => s.aluTwo .or a b
  | .xor a b => s.aluTwo .xor a b
  | .shl a b => s.aluTwo .shl a b
  | .shr a b => s.aluTwo .shr a b

/-- Every instruction concludes its own checks and commit, under its own row's opcode. -/
theorem exec_eq (i : Instr) (s : State) : exec i s = s.conclude i.mnemonic (s.effect i) := by
  cases i <;> rfl

/-- An instruction whose checks pass answers the state it commits. -/
theorem exec_of_ok {i : Instr} {s t : State} (h : s.effect i = .ok t) : exec i s = .next t := by
  rw [exec_eq, h]
  rfl

/-- An instruction whose check fails takes that fault (60_exceptions.md R206). -/
theorem exec_of_error {i : Instr} {s : State} {c : Cause} (h : s.effect i = .error c) :
    exec i s = .next (s.raise c (some (s.cfg.opcodes.get i.mnemonic))) := by
  rw [exec_eq, h]
  rfl

/-- A running engine that is still running after an instruction has taken no fault: the instruction committed. -/
theorem effect_ok_of_running {i : Instr} {s t : State} (h : exec i s = .next t) (ht : t.engine = .running) :
    s.effect i = .ok t := by
  rw [exec_eq] at h
  rcases State.conclude_cases h with h | ⟨c, -, rfl⟩
  · exact h
  · cases ht

/-- An instruction always answers a next state: the one it commits, or the fault of a failed check (60_exceptions.md R206). -/
theorem exec_next_cases {i : Instr} {s t : State} (h : exec i s = .next t) :
    s.effect i = .ok t ∨ ∃ c, s.effect i = .error c ∧ t = s.raise c (some (s.cfg.opcodes.get i.mnemonic)) := by
  rw [exec_eq] at h
  exact State.conclude_cases h

end Sys2Proof.Machine
end

