-- ==== Sys2Proof/Laws/Step.lean ====
section
/-! SUPPORT. What fetching answers, and what a step is made of (40_dispatch.md R90 to R93). -/

namespace Sys2Proof.Machine

/-- A fetch of a cell that holds a byte places it in IR (40_dispatch.md R91). -/
theorem State.fetchOpcode_some {s : State} {op : Byte} (h : s.cell s.pc.toNat = some op) :
    s.fetchOpcode = .ok (op, (s.setLatches s.pc op).setIr op) := by
  simp only [State.fetchOpcode, State.memRead_byte_some h]

/-- A fetch of a cell that holds no value (40_dispatch.md R91). -/
theorem State.fetchOpcode_none {s : State} (h : s.cell s.pc.toNat = none) :
    s.fetchOpcode = .error ⟨.uninitializedRead s.pc.toNat, none⟩ := by
  simp only [State.fetchOpcode, State.memRead_byte_none h]

/-- An operand byte that can be read (40_dispatch.md R93). -/
theorem State.opByte_ok_iff {s t : State} {k : Nat} {v : Byte} :
    s.opByte k = .ok (v, t) ↔ s.pc.toNat + k ≤ 255 ∧ s.cell (s.pc.toNat + k) = some v ∧
      t = s.setLatches (BitVec.ofNat 8 (s.pc.toNat + k)) v := State.memRead_ok_iff

/-- Fetching operands only moves the latches, and it stops only at a byte outside memory or a cell without a value
(40_dispatch.md R93). -/
theorem State.fetchOperands_cases (s : State) (m : Mnemonic) :
    (∃ a b t, s.fetchOperands m = .ok (a, b, t) ∧ t.forgetLatches = s.forgetLatches) ∨
      ∃ c, s.fetchOperands m = .error c ∧ ∃ k, c = .outOfBounds .addr k ∨ ∃ addr, c = .uninitializedRead addr := by
  have key : ∀ (u : State) (k : Nat), (∃ v t, u.opByte k = .ok (v, t) ∧ t.forgetLatches = u.forgetLatches) ∨
      ∃ c, u.opByte k = .error c ∧ ∃ j, c = .outOfBounds .addr j ∨ ∃ addr, c = .uninitializedRead addr := by
    intro u k
    cases h : u.opByte k with
    | error c =>
      refine .inr ⟨c, rfl, ?_⟩
      rcases memRead_error_code h with rfl | rfl
      · exact ⟨_, .inl rfl⟩
      · exact ⟨0, .inr ⟨_, rfl⟩⟩
    | ok p =>
      obtain ⟨v, t⟩ := p
      obtain ⟨-, -, rfl⟩ := State.opByte_ok_iff.mp h
      exact .inl ⟨v, _, rfl, rfl⟩
  have two : (∃ a b t, s.fetchTwo = .ok (a, b, t) ∧ t.forgetLatches = s.forgetLatches) ∨
      ∃ c, s.fetchTwo = .error c ∧ ∃ k, c = .outOfBounds .addr k ∨ ∃ addr, c = .uninitializedRead addr := by
    unfold State.fetchTwo
    rcases key s 1 with ⟨a, s1, h1, e1⟩ | ⟨c, h1, hc⟩
    · rw [h1]
      rcases key s1 2 with ⟨b, s2, h2, e2⟩ | ⟨c, h2, hc⟩
      · simp only [h2]
        exact .inl ⟨a, b, s2, rfl, e2.trans e1⟩
      · simp only [h2]
        exact .inr ⟨c, rfl, hc⟩
    · rw [h1]
      exact .inr ⟨c, rfl, hc⟩
  unfold State.fetchOperands
  cases m.format with
  | f0 => exact .inl ⟨0, 0, s, rfl, rfl⟩
  | f1r =>
    rcases key s 1 with ⟨a, s1, h1, e1⟩ | ⟨c, h1, hc⟩
    · simp only [h1]
      exact .inl ⟨a, 0, s1, rfl, e1⟩
    · simp only [h1]
      exact .inr ⟨c, rfl, hc⟩
  | f2rr => exact two
  | f2ri => exact two

/-- Everything a fetch can answer (40_dispatch.md R91 to R93, 60_exceptions.md R211): an empty cell at the pc, an opcode
byte without a handler, an operand byte that cannot be read, or an instruction of the decoded row, with nothing but
the latches moved. -/
theorem State.fetchInstr_cases (s : State) :
    (s.cell s.pc.toNat = none ∧ s.fetchInstr = .error ⟨.uninitializedRead s.pc.toNat, none⟩) ∨
    ∃ op, s.cell s.pc.toNat = some op ∧
      ((decodeOpcode s.cfg op = none ∧ s.fetchInstr = .error ⟨.invalidOpcode op, some op⟩) ∨
       ∃ m, decodeOpcode s.cfg op = some m ∧
        ((∃ c, s.fetchInstr = .error ⟨c, some op⟩ ∧ ∃ k, c = .outOfBounds .addr k ∨ ∃ addr, c = .uninitializedRead addr) ∨
         ∃ i t, s.fetchInstr = .ok (i, t) ∧ i.mnemonic = m ∧ t.forgetLatches = s.forgetLatches)) := by
  cases hc : s.cell s.pc.toNat with
  | none => exact .inl ⟨rfl, by simp only [State.fetchInstr, State.fetchOpcode_none hc]⟩
  | some op =>
    refine .inr ⟨op, rfl, ?_⟩
    have hcfg : ((s.setLatches s.pc op).setIr op).cfg = s.cfg := rfl
    cases hd : decodeOpcode s.cfg op with
    | none => exact .inl ⟨rfl, by simp only [State.fetchInstr, State.fetchOpcode_some hc, hcfg, hd]⟩
    | some m =>
      refine .inr ⟨m, rfl, ?_⟩
      rcases State.fetchOperands_cases ((s.setLatches s.pc op).setIr op) m with ⟨a, b, t, h, e⟩ | ⟨c, h, hk⟩
      · exact .inr ⟨m.build a b, t, by simp only [State.fetchInstr, State.fetchOpcode_some hc, hcfg, hd, h], by simp, e⟩
      · exact .inl ⟨c, by simp only [State.fetchInstr, State.fetchOpcode_some hc, hcfg, hd, h], hk⟩

/-- A step of a running engine (40_dispatch.md R90). -/
theorem step_running {s : State} (h : s.engine = .running) :
    step s = match s.fetchInstr with
      | .error e => .next (s.raise e.cause e.opcode).settle
      | .ok (i, t) => settleOutcome (exec i t) := by
  unfold step
  rw [h]
  rfl

/-- Everything a step can do, around `exec`: a fault before execution, taken in the state before the step, or the
instruction's own answer from a state in which only the latches have moved; the latches are freed in both
(40_dispatch.md R90, 60_exceptions.md R206). -/
theorem step_cases {s u : State} (h : step s = .next u) :
    (∃ e, s.fetchInstr = .error e ∧ u = (s.raise e.cause e.opcode).settle) ∨
    ∃ i t v, s.fetchInstr = .ok (i, t) ∧ exec i t = .next v ∧ u = v.settle := by
  unfold step at h
  split at h
  · cases h
  · cases h
  · split at h
    · cases h
      exact .inl ⟨_, by assumption, rfl⟩
    · rename_i i t hf
      cases he : exec i t with
      | next v => rw [he] at h; cases h; exact .inr ⟨i, t, v, hf, he, rfl⟩
      | fault r => rw [he] at h; cases h
      | refused r => rw [he] at h; cases h

/-- A step exists only while the engine is Running (10_state.md R30). -/
theorem running_of_step {s t : State} (h : step s = .next t) : s.engine = .running := by
  unfold step at h
  split at h
  · cases h
  · cases h
  · assumption

end Sys2Proof.Machine
end

