-- ==== Sys2Proof/Laws/HostPort.lean ====
section
/-! SUPPORT. What the host's load answers, and that placing an instruction keeps the canonical memory. -/

namespace Sys2Proof.Machine

/-- The launch of an image that fits is the reset state with the image in memory (70_reset_and_hazards.md R232, R233). -/
theorem launch_eq {cfg : Config} {image : List Byte} (h : image.length ≤ memSize) :
    launch cfg image = .next { State.resetWith cfg with mem := Memory.writeBytes [] 0 image } := by
  unfold launch load
  rw [if_neg (by simp [State.resetWith]), if_neg (Nat.not_lt.mpr h)]
  rfl

/-- A launch that is not refused is of an image that fits (70_reset_and_hazards.md R232). -/
theorem launch_next {cfg : Config} {image : List Byte} {s : State} (h : launch cfg image = .next s) :
    image.length ≤ memSize ∧ s = { State.resetWith cfg with mem := Memory.writeBytes [] 0 image } := by
  by_cases hl : image.length ≤ memSize
  · rw [launch_eq hl] at h
    cases h
    exact ⟨hl, rfl⟩
  · unfold launch load at h
    rw [if_neg (by simp [State.resetWith]), if_pos (Nat.lt_of_not_le hl)] at h
    cases h

theorem placeBytes_wf {m : Memory} {addr : Nat} {bytes : List Byte} (h : m.wf = true) : (placeBytes m addr bytes).wf = true := by
  induction bytes generalizing m addr with
  | nil => exact h
  | cons v rest ih =>
    unfold placeBytes
    split
    · exact ih (Memory.write_wf h (by assumption))
    · exact h

/-- What the host's word test places keeps the canonical memory. -/
theorem State.withFetchWord_wf {s : State} (h : s.mem.wf = true) (nbits w : Nat) : (s.withFetchWord nbits w).mem.wf = true :=
  placeBytes_wf h

/-- The reset memory is in its canonical form, under every configuration. -/
theorem State.resetWith_wf (cfg : Config) : (State.resetWith cfg).mem.wf = true := rfl

/-- A reset core, launched or stepped, always has canonical memory before its first step. -/
theorem launch_wf {cfg : Config} {image : List Byte} {s : State} (h : launch cfg image = .next s) : s.mem.wf = true := by
  obtain ⟨hl, rfl⟩ := launch_next h
  exact Memory.writeBytes_wf rfl (by simpa using hl)

end Sys2Proof.Machine
end

