-- ==== Sys2Proof/Laws/PerInstr.lean ====
section
/-! SUPPORT. Statements for all instructions, one lemma per constructor. -/

open Sys2Proof

/-- An instruction's bytes are its opcode and its operand bytes, one to three of them, and these determine it
(30_encoding.md R70, R71). -/
def Sys2Proof.Laws.EncodingShape.Statement (i : Instr) : Prop :=
  (∀ cfg, encode cfg i = cfg.opcodes.get i.mnemonic :: i.operands ∧ (encode cfg i).length = i.mnemonic.length) ∧
    1 ≤ i.mnemonic.length ∧ i.mnemonic.length ≤ 3 ∧
    i.mnemonic.build (i.operands.getD 0 0) (i.operands.getD 1 0) = i

theorem Sys2Proof.Laws.EncodingShape.hlt : Sys2Proof.Laws.EncodingShape.Statement .hlt :=
  ⟨fun _ => ⟨rfl, rfl⟩, by decide, by decide, rfl⟩

theorem Sys2Proof.Laws.EncodingShape.ret : Sys2Proof.Laws.EncodingShape.Statement .ret :=
  ⟨fun _ => ⟨rfl, rfl⟩, by decide, by decide, rfl⟩

theorem Sys2Proof.Laws.EncodingShape.push (a : Byte) : Sys2Proof.Laws.EncodingShape.Statement (.push a) :=
  ⟨fun _ => ⟨rfl, rfl⟩, show 1 ≤ (2 : Nat) by decide, show (2 : Nat) ≤ 3 by decide, rfl⟩

theorem Sys2Proof.Laws.EncodingShape.pop (a : Byte) : Sys2Proof.Laws.EncodingShape.Statement (.pop a) :=
  ⟨fun _ => ⟨rfl, rfl⟩, show 1 ≤ (2 : Nat) by decide, show (2 : Nat) ≤ 3 by decide, rfl⟩

theorem Sys2Proof.Laws.EncodingShape.prn (a : Byte) : Sys2Proof.Laws.EncodingShape.Statement (.prn a) :=
  ⟨fun _ => ⟨rfl, rfl⟩, show 1 ≤ (2 : Nat) by decide, show (2 : Nat) ≤ 3 by decide, rfl⟩

theorem Sys2Proof.Laws.EncodingShape.call (a : Byte) : Sys2Proof.Laws.EncodingShape.Statement (.call a) :=
  ⟨fun _ => ⟨rfl, rfl⟩, show 1 ≤ (2 : Nat) by decide, show (2 : Nat) ≤ 3 by decide, rfl⟩

theorem Sys2Proof.Laws.EncodingShape.jmp (a : Byte) : Sys2Proof.Laws.EncodingShape.Statement (.jmp a) :=
  ⟨fun _ => ⟨rfl, rfl⟩, show 1 ≤ (2 : Nat) by decide, show (2 : Nat) ≤ 3 by decide, rfl⟩

theorem Sys2Proof.Laws.EncodingShape.jeq (a : Byte) : Sys2Proof.Laws.EncodingShape.Statement (.jeq a) :=
  ⟨fun _ => ⟨rfl, rfl⟩, show 1 ≤ (2 : Nat) by decide, show (2 : Nat) ≤ 3 by decide, rfl⟩

theorem Sys2Proof.Laws.EncodingShape.jne (a : Byte) : Sys2Proof.Laws.EncodingShape.Statement (.jne a) :=
  ⟨fun _ => ⟨rfl, rfl⟩, show 1 ≤ (2 : Nat) by decide, show (2 : Nat) ≤ 3 by decide, rfl⟩

theorem Sys2Proof.Laws.EncodingShape.not (a : Byte) : Sys2Proof.Laws.EncodingShape.Statement (.not a) :=
  ⟨fun _ => ⟨rfl, rfl⟩, show 1 ≤ (2 : Nat) by decide, show (2 : Nat) ≤ 3 by decide, rfl⟩

theorem Sys2Proof.Laws.EncodingShape.ldi (a imm : Byte) : Sys2Proof.Laws.EncodingShape.Statement (.ldi a imm) :=
  ⟨fun _ => ⟨rfl, rfl⟩, show 1 ≤ (3 : Nat) by decide, show (3 : Nat) ≤ 3 by decide, rfl⟩

theorem Sys2Proof.Laws.EncodingShape.add (a b : Byte) : Sys2Proof.Laws.EncodingShape.Statement (.add a b) :=
  ⟨fun _ => ⟨rfl, rfl⟩, show 1 ≤ (3 : Nat) by decide, show (3 : Nat) ≤ 3 by decide, rfl⟩

theorem Sys2Proof.Laws.EncodingShape.mul (a b : Byte) : Sys2Proof.Laws.EncodingShape.Statement (.mul a b) :=
  ⟨fun _ => ⟨rfl, rfl⟩, show 1 ≤ (3 : Nat) by decide, show (3 : Nat) ≤ 3 by decide, rfl⟩

theorem Sys2Proof.Laws.EncodingShape.mod (a b : Byte) : Sys2Proof.Laws.EncodingShape.Statement (.mod a b) :=
  ⟨fun _ => ⟨rfl, rfl⟩, show 1 ≤ (3 : Nat) by decide, show (3 : Nat) ≤ 3 by decide, rfl⟩

theorem Sys2Proof.Laws.EncodingShape.cmp (a b : Byte) : Sys2Proof.Laws.EncodingShape.Statement (.cmp a b) :=
  ⟨fun _ => ⟨rfl, rfl⟩, show 1 ≤ (3 : Nat) by decide, show (3 : Nat) ≤ 3 by decide, rfl⟩

theorem Sys2Proof.Laws.EncodingShape.and (a b : Byte) : Sys2Proof.Laws.EncodingShape.Statement (.and a b) :=
  ⟨fun _ => ⟨rfl, rfl⟩, show 1 ≤ (3 : Nat) by decide, show (3 : Nat) ≤ 3 by decide, rfl⟩

theorem Sys2Proof.Laws.EncodingShape.or (a b : Byte) : Sys2Proof.Laws.EncodingShape.Statement (.or a b) :=
  ⟨fun _ => ⟨rfl, rfl⟩, show 1 ≤ (3 : Nat) by decide, show (3 : Nat) ≤ 3 by decide, rfl⟩

theorem Sys2Proof.Laws.EncodingShape.xor (a b : Byte) : Sys2Proof.Laws.EncodingShape.Statement (.xor a b) :=
  ⟨fun _ => ⟨rfl, rfl⟩, show 1 ≤ (3 : Nat) by decide, show (3 : Nat) ≤ 3 by decide, rfl⟩

theorem Sys2Proof.Laws.EncodingShape.shl (a b : Byte) : Sys2Proof.Laws.EncodingShape.Statement (.shl a b) :=
  ⟨fun _ => ⟨rfl, rfl⟩, show 1 ≤ (3 : Nat) by decide, show (3 : Nat) ≤ 3 by decide, rfl⟩

theorem Sys2Proof.Laws.EncodingShape.shr (a b : Byte) : Sys2Proof.Laws.EncodingShape.Statement (.shr a b) :=
  ⟨fun _ => ⟨rfl, rfl⟩, show 1 ≤ (3 : Nat) by decide, show (3 : Nat) ≤ 3 by decide, rfl⟩
end

