-- ==== Sys2Proof/Tests/Slice0.lean ====
section
/-! SUPPORT. Tests: the checks of WellFormed, words and vectors from spec/95_test_vectors.md and the worked examples of the
rules, and a witness for the hypotheses of every statement. -/

namespace Sys2Proof.Tests

open Sys2Proof.Machine

/-! ### Helpers -/

/-- A state with all 20 rows dispatched and these registers, pc, FL and cells; the rest as reset leaves it. -/
def st (regs : Vector Byte 8) (pc : Byte := 0) (fl : Option Byte := none) (mem : Memory := []) : State :=
  { State.resetWith Config.allRows with regs := regs, pc := pc, fl := fl, mem := mem }

/-- The same state under `ALU_OVERFLOW = fault`. -/
def strict (s : State) : State := { s with cfg := { s.cfg with aluOverflow := .fault } }

/-- The registers 0 to 2 and SP. -/
def regs3 (a b c sp : Byte) : Vector Byte 8 := #v[a, b, c, 0, 0, 0, 0, sp]

/-- The next state of an outcome, if there is one. -/
def nextOf : Host.Outcome State Fault Refusal → Option State
  | .next t => some t
  | _ => none

/-- The cause in the fault record of an outcome's next state. -/
def causeOf (o : Host.Outcome State Fault Refusal) : Option Cause := ((nextOf o).bind (·.fault)).map (·.cause)

/-- A register and the pc of an outcome's next state. -/
def regPc (j : Fin 8) (o : Host.Outcome State Fault Refusal) : Option (Byte × Byte) := (nextOf o).map fun t => (t.reg j, t.pc)

/-! ### WellFormed: an ill-formed term for each check -/

theorem test_defaults_wellFormed : Config.defaults.wellFormed = true ∧ Config.allRows.wellFormed = true := by decide
theorem test_wf_refuses_equal_opcodes :
    ({ Config.defaults with opcodes := { OpcodeMap.defaults with ret := 0x45 } } : Config).wellFormed = false := by decide
theorem test_wf_refuses_other_hlt :
    ({ Config.defaults with opcodes := { OpcodeMap.defaults with hlt := 2 } } : Config).wellFormed = false := by decide
theorem test_wf_refuses_other_ldi :
    ({ Config.defaults with opcodes := { OpcodeMap.defaults with ldi := 2 } } : Config).wellFormed = false := by decide
theorem test_wf_refuses_other_mul :
    ({ Config.defaults with opcodes := { OpcodeMap.defaults with mul := 2 } } : Config).wellFormed = false := by decide
theorem test_wf_refuses_other_prn :
    ({ Config.defaults with opcodes := { OpcodeMap.defaults with prn := 2 } } : Config).wellFormed = false := by decide
theorem test_wf_refuses_ext_row : (Instr.mod 0 1).wellFormed Config.defaults = false := by decide
theorem test_wf_keeps_any_operand : (Instr.add 255 8).wellFormed Config.defaults = true := by decide

/-! ### Decode: each row's word, bit by bit from 30_encoding.md R74 -/

theorem test_decode_hlt : decode Config.defaults [0b00000001] = .ok (.hlt, []) := by decide
theorem test_decode_ret : decode Config.defaults [0b00010001] = .ok (.ret, []) := by decide
theorem test_decode_push : decode Config.defaults [0b01000101, 0b00000011] = .ok (.push 3, []) := by decide
theorem test_decode_pop : decode Config.defaults [0b01000110, 0b00000111] = .ok (.pop 7, []) := by decide
theorem test_decode_prn : decode Config.defaults [0b01000111, 0b00000000] = .ok (.prn 0, []) := by decide
theorem test_decode_call : decode Config.defaults [0b01010000, 0b00000001] = .ok (.call 1, []) := by decide
theorem test_decode_jmp : decode Config.defaults [0b01010100, 0b00000010] = .ok (.jmp 2, []) := by decide
theorem test_decode_jeq : decode Config.defaults [0b01010101, 0b00001001] = .ok (.jeq 9, []) := by decide
theorem test_decode_jne : decode Config.defaults [0b01010110, 0b00000100] = .ok (.jne 4, []) := by decide
theorem test_decode_not : decode Config.allRows [0b01101001, 0b00000010] = .ok (.not 2, []) := by decide
theorem test_decode_ldi : decode Config.defaults [0b10000010, 0b00000101, 0b11111111] = .ok (.ldi 5 255, []) := by decide
theorem test_decode_add : decode Config.defaults [0b10100000, 0b00000011, 0b11001000] = .ok (.add 3 200, []) := by decide
theorem test_decode_mul : decode Config.defaults [0b10100010, 0b00000000, 0b00000001] = .ok (.mul 0 1, []) := by decide
theorem test_decode_mod : decode Config.allRows [0b10100100, 0b00000000, 0b00000001] = .ok (.mod 0 1, []) := by decide
theorem test_decode_cmp : decode Config.defaults [0b10100111, 0b00000001, 0b00000011] = .ok (.cmp 1 3, []) := by decide
theorem test_decode_and : decode Config.allRows [0b10101000, 0b00000100, 0b00000010] = .ok (.and 4 2, []) := by decide
theorem test_decode_or : decode Config.allRows [0b10101010, 0b00000100, 0b00000010] = .ok (.or 4 2, []) := by decide
theorem test_decode_xor : decode Config.allRows [0b10101011, 0b00000100, 0b00000010] = .ok (.xor 4 2, []) := by decide
theorem test_decode_shl : decode Config.allRows [0b10101100, 0b00000100, 0b00000010] = .ok (.shl 4 2, []) := by decide
theorem test_decode_shr : decode Config.allRows [0b10101101, 0b00000100, 0b00000010] = .ok (.shr 4 2, []) := by decide
/-- 30_encoding.md R78: the LS-8's NOP, SUB and LD are no instructions here. -/
theorem test_decode_no_ls8_rows : decodeOpcode Config.allRows 0x00 = none ∧ decodeOpcode Config.allRows 0xA1 = none ∧
    decodeOpcode Config.allRows 0x83 = none := by decide
theorem test_decode_truncated : decode Config.defaults [0x82, 0] = .error (.truncated 0x82) := by decide
theorem test_encode_program :
    assemble Config.defaults [.ldi 0 8, .ldi 1 9, .mul 0 1, .prn 0, .hlt] = [130, 0, 8, 130, 1, 9, 162, 0, 1, 71, 0, 1] := by
  decide
/-- 30_encoding.md R80 -/
theorem test_assembly : (Instr.ldi 0 8).assembly = "LDI R0, 8" ∧ (Instr.cmp 1 7).assembly = "CMP R1, R7" := by decide
theorem test_table_word : decodeTableWord 8 0xA4 = some (.mod 0 0) ∧ decodeTableWord 24 0x080082 = some (.ldi 0 8) := by
  decide

/-! ### One step of each instruction, from the vectors of 95_test_vectors.md -/

/-- A2, A3 -/
theorem test_add_wraps : regPc 0 (execAdd 0 1 (st (regs3 200 100 0 9))) = some (44, 3) := by decide
/-- A4 -/
theorem test_add_fault_mode : causeOf (execAdd 0 1 (strict (st (regs3 200 100 0 9)))) = some (.aluOverflow 300) := by decide
/-- M3 -/
theorem test_mul_wraps : regPc 0 (execMul 0 1 (st (regs3 255 255 0 9))) = some (1, 3) := by decide
/-- M5 -/
theorem test_mul_fault_mode : causeOf (execMul 0 1 (strict (st (regs3 16 16 0 9)))) = some (.aluOverflow 256) := by decide
/-- C4 -/
theorem test_cmp_unsigned : (nextOf (execCmp 0 1 (st (regs3 0 255 0 9)))).map (·.fl) = some (some 0b100) := by decide
/-- C6: FL is overwritten whole. -/
theorem test_cmp_overwrites : (nextOf (execCmp 1 0 (st (regs3 1 2 0 9) 0 (some 1)))).map (·.fl) = some (some 0b010) := by decide
/-- E1 -/
theorem test_and : regPc 0 (execAnd 0 1 (st (regs3 0xCA 0xA6 0 9))) = some (0x82, 3) := by decide
/-- E2 -/
theorem test_or : regPc 0 (execOr 0 1 (st (regs3 0xCA 0xA6 0 9))) = some (0xEE, 3) := by decide
/-- E3 -/
theorem test_xor : regPc 0 (execXor 0 1 (st (regs3 0xCA 0xA6 0 9))) = some (0x6C, 3) := by decide
/-- E5 -/
theorem test_not : regPc 2 (execNot 2 (st (regs3 0 0 0x0F 9))) = some (0xF0, 2) := by decide
/-- E7 -/
theorem test_not_fault_mode : causeOf (execNot 2 (strict (st (regs3 0 0 0 9)))) = some (.aluOverflow (-1)) := by decide
/-- E10 -/
theorem test_shl_by_255 : regPc 0 (execShl 0 1 (st (regs3 1 255 0 9))) = some (0, 3) := by decide
/-- E12 -/
theorem test_shl_fault_mode : causeOf (execShl 0 1 (strict (st (regs3 0x81 1 0 9)))) = some (.aluOverflow 258) := by decide
/-- E14 -/
theorem test_shr : regPc 0 (execShr 0 1 (st (regs3 0x80 7 0 9))) = some (1, 3) := by decide
/-- E15 -/
theorem test_shr_by_8 : regPc 0 (execShr 0 1 (st (regs3 0xFF 8 0 9))) = some (0, 3) := by decide
/-- E17 -/
theorem test_mod : regPc 0 (execMod 0 1 (st (regs3 6 4 0 9))) = some (2, 3) := by decide
/-- E22 -/
theorem test_mod_by_zero : causeOf (execMod 0 0 (st (regs3 0 4 0 9))) = some (.arithmeticFault 0 0) := by decide
/-- L3: SP moves. -/
theorem test_ldi_sp : (nextOf (execLdi 7 0x40 (st (regs3 0 0 0 0xFF)))).map (·.sp) = some 0x40 := by decide
/-- L4 -/
theorem test_ldi_bad_register : causeOf (execLdi 8 1 (st (regs3 0 0 0 9))) = some (.outOfBounds .reg 8) := by decide
/-- L6 -/
theorem test_prn_sp : (nextOf (execPrn 7 (st (regs3 0 0 0 0xFE)))).map (·.out) = some [254] := by decide
/-- V6: nothing is emitted. -/
theorem test_prn_at_254 : (nextOf (execPrn 0 (st (regs3 5 0 0 9) 254))).map (fun t => (t.out, t.fault.map (·.cause)))
    = some ([], some (.outOfBounds .pc 256)) := by decide
/-- S1 -/
theorem test_push : (nextOf (execPush 0 (st (regs3 42 0 0 0xFF)))).map (fun t => (t.sp, t.mem, t.pc))
    = some (0xFE, [(0xFE, 42)], 2) := by decide
/-- S3 -/
theorem test_push_sp : (nextOf (execPush 7 (st (regs3 42 0 0 0x80)))).map (fun t => (t.sp, t.mem))
    = some (0x7F, [(0x7F, 0x7F)]) := by decide
/-- S4 -/
theorem test_pop : (nextOf (execPop 1 (st (regs3 0 0 0 0xFE) 0 none [(0xFE, 42)]))).map (fun t => (t.reg 1, t.sp, t.mem))
    = some (42, 0xFF, [(0xFE, 42)]) := by decide
/-- S7 -/
theorem test_pop_sp : (nextOf (execPop 7 (st (regs3 0 0 0 0x7F) 0 none [(0x7F, 0x10)]))).map (·.sp) = some 0x11 := by decide
/-- S9 -/
theorem test_call : (nextOf (execCall 1 (st (regs3 0 40 0 0xFF) 10))).map (fun t => (t.sp, t.mem, t.pc))
    = some (0xFE, [(0xFE, 12)], 40) := by decide
/-- S12 -/
theorem test_call_sp : (nextOf (execCall 7 (st (regs3 0 0 0 0x80) 10))).map (fun t => (t.mem, t.pc))
    = some ([(0x7F, 12)], 0x7F) := by decide
/-- S13 -/
theorem test_ret : (nextOf (execRet (st (regs3 0 0 0 0xFE) 40 none [(0xFE, 12)]))).map (fun t => (t.sp, t.pc))
    = some (0xFF, 12) := by decide
/-- S14 -/
theorem test_ret_empty_stack : causeOf (execRet (st (regs3 0 0 0 0xFF))) = some (.uninitializedRead 0xFF) := by decide
/-- B1 -/
theorem test_jmp : (nextOf (execJmp 2 (st (regs3 0 0 0x20 9) 5))).map (·.pc) = some 0x20 := by decide
/-- B10: taken at 254, no fault. -/
theorem test_jeq_taken_at_254 : (nextOf (execJeq 2 (st (regs3 0 0 0 9) 254 (some 1)))).map (fun t => (t.pc, t.fault))
    = some (0, none) := by decide
/-- B12: the index is checked before FL. -/
theorem test_jeq_bad_register : causeOf (execJeq 9 (st (regs3 0 0 0 9))) = some (.outOfBounds .reg 9) := by decide
/-- B6 -/
theorem test_jne_taken : (nextOf (execJne 2 (st (regs3 0 0 9 9) 4 (some 0b100)))).map (·.pc) = some 9 := by decide
/-- B7 -/
theorem test_jne_not_taken : (nextOf (execJne 2 (st (regs3 0 0 9 9) 4 (some 0b001)))).map (·.pc) = some 6 := by decide
/-- H1 -/
theorem test_hlt : (nextOf (execHlt (st (regs3 0 0 0 9) 11))).map (fun t => (t.engine, t.pc)) = some (.halted, 11) := by decide

/-! ### Whole steps -/

/-- V1: the first step of an empty machine. -/
theorem test_step_reset : (nextOf (step State.reset)).map (fun t => (t.engine, t.fault))
    = some (.faulted, some ⟨.uninitializedRead 0, 0, none⟩) := by decide
/-- V4: AND under the defaults, with no operand read. -/
theorem test_step_and_default : causeOf (step { State.reset with mem := [(0, 0xA8)] }) = some (.invalidOpcode 0xA8) := by decide
/-- V9: the second operand byte holds no value. -/
theorem test_step_missing_operand : causeOf (step { State.reset with mem := [(0, 130), (1, 0)] })
    = some (.uninitializedRead 2) := by decide
/-- V5: the operand lies beyond memory. -/
theorem test_step_operand_at_256 : causeOf (step (st (regs3 0 0 0 9) 255 none [(255, 71)])) = some (.outOfBounds .addr 256) := by
  decide
/-- W1, first step: LDI R0, 8 of the loaded image. -/
theorem test_step_w1 : ((nextOf (launch Config.defaults [130, 0, 8, 1])).bind fun s => regPc 0 (step s)) = some (8, 3) := by
  decide
/-- P6, last program: the record of the fault, after its first step has moved SP to 0. -/
theorem test_step_fault_record : ((nextOf (step (st (regs3 0 0 0 0) 3 none [(3, 69), (4, 0)]))).bind (·.fault))
    = some ⟨.outOfBounds .sp (-1), 3, some 69⟩ := by decide
/-- The host's word test runs an EXT row from reset: R0 mod R0 with R0 = 0. -/
theorem test_withFetchWord_mod : causeOf (step (State.reset.withFetchWord 8 0xA4)) = some (.arithmeticFault 0 0) := by decide
theorem test_withFetchWord_ldi : regPc 0 (step (State.reset.withFetchWord 24 0x090082)) = some (9, 3) := by decide

/-! ### Witnesses: states and operands that meet the hypotheses of each statement -/

theorem witness_DecodeEncodeRoundTrip : ∃ (cfg : Config) (i : Instr), cfg.opcodes.distinct = true ∧ i.wellFormed cfg = true :=
  ⟨Config.allRows, .mod 0 255, by decide, by decide⟩
theorem witness_DecodeReadsOnlyEncodings : ∃ (cfg : Config) (bytes rest : List Byte) (i : Instr),
    decode cfg bytes = .ok (i, rest) := ⟨Config.defaults, [1, 7], [7], .hlt, by decide⟩
theorem witness_ExtRowsNeedTheParameter_false : ∃ (cfg : Config) (m : Mnemonic), cfg.opcodes.distinct = true ∧
    m ∈ [.and, .or, .xor, .not, .shl, .shr, .mod] ∧ cfg.extAluDispatch = false := ⟨Config.defaults, .mod, by decide⟩
theorem witness_ExtRowsNeedTheParameter_true : ∃ (cfg : Config) (m : Mnemonic), cfg.opcodes.distinct = true ∧
    m ∈ [.and, .or, .xor, .not, .shl, .shr, .mod] ∧ cfg.extAluDispatch = true := ⟨Config.allRows, .and, by decide⟩
/-- A three-byte instruction in the last three cells. -/
theorem witness_StepRunsDecodedInstruction : ∃ (s : State) (bytes : List Byte) (i : Instr), s.engine = .running ∧
    decode s.cfg bytes = .ok (i, []) ∧
    ∀ (k : Nat) (h : k < bytes.length), s.pc.toNat + k ≤ 255 ∧ s.cell (s.pc.toNat + k) = some bytes[k] :=
  ⟨st (regs3 0 0 0 9) 253 none [(253, 0xA0), (254, 0), (255, 1)], [0xA0, 0, 1], .add 0 1, by decide, by decide, by decide⟩
theorem witness_OpcodeFetch_some : ∃ (s : State) (op : Byte), s.cell s.pc.toNat = some op :=
  ⟨st (regs3 0 0 0 9) 255 none [(255, 1)], 1, by decide⟩
theorem witness_OpcodeFetch_none : ∃ s : State, s.cell s.pc.toNat = none ∧ s.engine = .running := ⟨State.reset, by decide⟩
theorem witness_IllegalOpcodeFaults_undecodable : ∃ (s : State) (op : Byte), s.engine = .running ∧ s.cell s.pc.toNat = some op ∧
    decodeOpcode s.cfg op = none := ⟨st (regs3 0 0 0 9) 0 none [(0, 0)], 0, by decide⟩
theorem witness_IllegalOpcodeFaults_ext : ∃ (s : State) (op : Byte), s.engine = .running ∧ s.cell s.pc.toNat = some op ∧
    s.cfg.opcodes.distinct = true ∧ s.cfg.extAluDispatch = false ∧ ∃ m : Mnemonic, m.isExt = true ∧ op = s.cfg.opcodes.get m :=
  ⟨{ State.reset with mem := [(0, 0x69)] }, 0x69, by decide, by decide, by decide, by decide, .not, by decide⟩
/-- The second operand byte would lie at 256. -/
theorem witness_OperandFetchFaults_addr : ∃ (s : State) (op : Byte) (m : Mnemonic) (k : Nat), s.engine = .running ∧
    s.cell s.pc.toNat = some op ∧ decodeOpcode s.cfg op = some m ∧ 1 ≤ k ∧ k ≤ m.format.operandCount ∧
    (∀ j, 1 ≤ j → j < k → s.pc.toNat + j ≤ 255 ∧ (s.cell (s.pc.toNat + j)).isSome = true) ∧ 255 < s.pc.toNat + k := by
  refine ⟨st (regs3 0 0 0 9) 254 none [(254, 0xA0), (255, 1)], 0xA0, .add, 2, by decide, by decide, by decide, by decide,
    by decide, ?_, by decide⟩
  intro j h1 h2
  obtain rfl : j = 1 := by omega
  decide
/-- The first operand byte lies at 255 and holds no value. -/
theorem witness_OperandFetchFaults_empty : ∃ (s : State) (op : Byte) (m : Mnemonic) (k : Nat), s.engine = .running ∧
    s.cell s.pc.toNat = some op ∧ decodeOpcode s.cfg op = some m ∧ 1 ≤ k ∧ k ≤ m.format.operandCount ∧
    (∀ j, 1 ≤ j → j < k → s.pc.toNat + j ≤ 255 ∧ (s.cell (s.pc.toNat + j)).isSome = true) ∧ s.pc.toNat + k ≤ 255 ∧
    s.cell (s.pc.toNat + k) = none :=
  ⟨st (regs3 0 0 0 9) 254 none [(254, 71)], 71, .prn, 1, by decide, by decide, by decide, by decide, by decide,
    fun j h1 h2 => by omega, by decide, by decide⟩
theorem witness_NothingRunsAfterHlt : ∃ (s t : State) (op : Byte), s.cell s.pc.toNat = some op ∧
    decodeOpcode s.cfg op = some .hlt ∧ step s = .next t :=
  ⟨st (regs3 0 0 0 9) 255 none [(255, 1)], _, 1, by decide, by decide, rfl⟩
theorem witness_StepEnabledExactlyWhileRunning : (∃ s : State, s.engine = .running) ∧ (∃ s : State, s.engine = .halted) ∧
    ∃ s : State, s.engine = .faulted :=
  ⟨⟨State.reset, rfl⟩, ⟨{ State.reset with engine := .halted }, rfl⟩, ⟨{ State.reset with engine := .faulted }, rfl⟩⟩

theorem witness_RetCompletes : ∃ (s : State) (v : Byte), s.cell s.sp.toNat = some v ∧ s.sp ≠ 255 :=
  ⟨st (regs3 0 0 0 254) 0 none [(254, 12)], 12, by decide⟩
/-- SP = 1 and pc = 253, the last values that complete; R7 as the operand. -/
theorem witness_PushCompletes : ∃ (a : Byte) (s : State) (_ : a.toNat < 8), s.sp ≠ 0 ∧ s.pc.toNat + 2 ≤ 255 :=
  ⟨7, st (regs3 0 0 0 1) 253, by decide, by decide, by decide⟩
theorem witness_PopCompletes : ∃ (a v : Byte) (s : State) (_ : a.toNat < 8), s.cell s.sp.toNat = some v ∧
    (if a = 7 then v else s.sp) ≠ 255 ∧ s.pc.toNat + 2 ≤ 255 :=
  ⟨7, 254, st (regs3 0 0 0 255) 253 none [(255, 254)], by decide, by decide, by decide, by decide⟩
theorem witness_PrnCompletes : ∃ (a : Byte) (s : State) (_ : a.toNat < 8), s.pc.toNat + 2 ≤ 255 :=
  ⟨7, st (regs3 0 0 0 1) 253, by decide, by decide⟩
theorem witness_CallCompletes : ∃ (a : Byte) (s : State) (_ : a.toNat < 8), s.sp ≠ 0 ∧ s.pc.toNat + 2 ≤ 255 :=
  ⟨0, st (regs3 0 0 0 1) 253, by decide, by decide, by decide⟩
theorem witness_JmpCompletes : ∃ a : Byte, a.toNat < 8 := ⟨7, by decide⟩
theorem witness_ConditionalBranchesComplete_E : ∃ (a fl : Byte) (s : State) (_ : a.toNat < 8), s.fl = some fl ∧
    fl.getLsbD 0 = true ∧ s.pc.toNat + 2 ≤ 255 := ⟨7, 1, st (regs3 0 0 0 1) 253 (some 1), by decide, by decide, by decide, by decide⟩
theorem witness_ConditionalBranchesComplete_notE : ∃ (a fl : Byte) (s : State) (_ : a.toNat < 8), s.fl = some fl ∧
    fl.getLsbD 0 = false ∧ s.pc.toNat + 2 ≤ 255 := ⟨0, 4, st (regs3 0 0 0 1) 253 (some 4), by decide, by decide, by decide, by decide⟩
theorem witness_NotCompletes : ∃ (a : Byte) (s : State) (_ : a.toNat < 8), s.cfg.aluOverflow = .wrap ∧ s.pc.toNat + 2 ≤ 255 :=
  ⟨7, st (regs3 0 0 0 1) 253, by decide, by decide, by decide⟩
theorem witness_LdiCompletes : ∃ (a : Byte) (s : State) (_ : a.toNat < 8), s.pc.toNat + 3 ≤ 255 :=
  ⟨7, st (regs3 0 0 0 1) 252, by decide, by decide⟩
/-- Under `fault`, a sum of exactly 255. -/
theorem witness_AddCompletes : ∃ (a b : Byte) (s : State) (ha : a.toNat < 8) (hb : b.toNat < 8),
    s.cfg.aluOverflow = .fault ∧ (s.reg ⟨a.toNat, ha⟩).toNat + (s.reg ⟨b.toNat, hb⟩).toNat ≤ 255 ∧ s.pc.toNat + 3 ≤ 255 :=
  ⟨0, 1, strict (st (regs3 200 55 0 1) 252), by decide, by decide, by decide, by decide, by decide⟩
theorem witness_AddCompletes_wrap : ∃ (a b : Byte) (s : State) (_ : a.toNat < 8) (_ : b.toNat < 8),
    s.cfg.aluOverflow = .wrap ∧ s.pc.toNat + 3 ≤ 255 := ⟨7, 7, st (regs3 0 0 0 200) 252, by decide, by decide, by decide, by decide⟩
theorem witness_MulCompletes : ∃ (a b : Byte) (s : State) (ha : a.toNat < 8) (hb : b.toNat < 8),
    s.cfg.aluOverflow = .fault ∧ (s.reg ⟨a.toNat, ha⟩).toNat * (s.reg ⟨b.toNat, hb⟩).toNat ≤ 255 ∧ s.pc.toNat + 3 ≤ 255 :=
  ⟨0, 1, strict (st (regs3 51 5 0 1) 252), by decide, by decide, by decide, by decide, by decide⟩
theorem witness_ModCompletes : ∃ (a b : Byte) (s : State) (_ : a.toNat < 8) (hb : b.toNat < 8), s.reg ⟨b.toNat, hb⟩ ≠ 0 ∧
    s.pc.toNat + 3 ≤ 255 := ⟨1, 0, st (regs3 1 0 0 1) 252, by decide, by decide, by decide, by decide⟩
theorem witness_CmpCompletes : ∃ (a b : Byte) (s : State) (_ : a.toNat < 8) (_ : b.toNat < 8), s.pc.toNat + 3 ≤ 255 :=
  ⟨7, 0, st (regs3 1 0 0 1) 252, by decide, by decide, by decide⟩
theorem witness_BitwiseComplete : ∃ (a b : Byte) (s : State) (_ : a.toNat < 8) (_ : b.toNat < 8), s.pc.toNat + 3 ≤ 255 :=
  ⟨3, 3, st (regs3 1 0 0 1) 252, by decide, by decide, by decide⟩
/-- Under `fault`, 0 shifted by 200 still fits (E13). -/
theorem witness_ShiftsComplete : ∃ (a b : Byte) (s : State) (ha : a.toNat < 8) (hb : b.toNat < 8), s.pc.toNat + 3 ≤ 255 ∧
    s.cfg.aluOverflow = .fault ∧ (s.reg ⟨a.toNat, ha⟩).toNat * 2 ^ (s.reg ⟨b.toNat, hb⟩).toNat ≤ 255 :=
  ⟨0, 1, strict (st (regs3 0 200 0 1) 252), by decide, by decide, by decide, by decide, by decide⟩

/-- A9: of two bad indices the first is reported. -/
theorem witness_BadRegisterOperandFaults : ∃ (i : Instr) (x : Byte),
    i.registerOperands.find? (fun r => decide (8 ≤ r.toNat)) = some x := ⟨.add 9 8, 9, by decide⟩
theorem witness_BadRegisterOperandFaults_second : ∃ (i : Instr) (x : Byte),
    i.registerOperands.find? (fun r => decide (8 ≤ r.toNat)) = some x := ⟨.add 7 8, 8, by decide⟩
theorem witness_AluOverflowFaults : ∃ (a b A B : Byte) (s : State) (ha : a.toNat < 8) (hb : b.toNat < 8),
    s.cfg.aluOverflow = .fault ∧ s.reg ⟨a.toNat, ha⟩ = A ∧ s.reg ⟨b.toNat, hb⟩ = B ∧ 255 < A.toNat + B.toNat ∧
    255 < A.toNat * B.toNat ∧ 255 < A.toNat * 2 ^ B.toNat :=
  ⟨0, 1, 128, 128, strict (st (regs3 128 128 0 1)), by decide, by decide, by decide, by decide, by decide, by decide, by decide,
    by decide⟩
theorem witness_ModByZeroFaults : ∃ (a b : Byte) (s : State), a.toNat < 8 ∧ ∃ hb : b.toNat < 8, s.reg ⟨b.toNat, hb⟩ = 0 :=
  ⟨0, 0, st (regs3 0 0 0 1) 255, by decide, by decide, by decide⟩
theorem witness_UnsetFlagsFaults : ∃ (a : Byte) (s : State), a.toNat < 8 ∧ s.fl = none := ⟨7, State.reset, by decide⟩
theorem witness_StackFaults_down : ∃ (a : Byte) (s : State), a.toNat < 8 ∧ s.sp = 0 := ⟨7, st (regs3 0 0 0 0), by decide⟩
theorem witness_StackFaults_empty : ∃ (a : Byte) (s : State), a.toNat < 8 ∧ s.cell s.sp.toNat = none :=
  ⟨7, State.reset, by decide⟩
theorem witness_StackFaults_up : ∃ (a : Byte) (s : State) (v : Byte), a.toNat < 8 ∧ s.cell s.sp.toNat = some v ∧
    (if a = 7 then v else s.sp) = 255 ∧ s.sp = 255 := ⟨0, st (regs3 0 0 0 255) 0 none [(255, 9)], 9, by decide⟩
theorem witness_StackFaults_up_sp : ∃ (a : Byte) (s : State) (v : Byte), a.toNat < 8 ∧ s.cell s.sp.toNat = some v ∧
    (if a = 7 then v else s.sp) = 255 := ⟨7, st (regs3 0 0 0 0x7F) 0 none [(0x7F, 255)], 255, by decide⟩
theorem witness_ThreeByteNextPcFaults : ∃ (a b : Byte) (s : State) (ha : a.toNat < 8) (hb : b.toNat < 8) (r : AluOutput),
    255 < s.pc.toNat + 3 ∧ alu s.cfg.aluOverflow .mod a b (s.reg ⟨a.toNat, ha⟩) (s.reg ⟨b.toNat, hb⟩) = .ok r :=
  ⟨0, 1, st (regs3 6 4 0 9) 253, by decide, by decide, .result 2, by decide, by decide⟩
theorem witness_TwoByteNextPcFaults : ∃ (a : Byte) (s : State), a.toNat < 8 ∧ 255 < s.pc.toNat + 2 ∧
    s.cfg.aluOverflow = .wrap ∧ s.sp ≠ 0 ∧ s.fl.map (·.getLsbD 0) = some true ∧
    ∃ v, s.cell s.sp.toNat = some v ∧ (if a = 7 then v else s.sp) ≠ 255 :=
  ⟨0, st (regs3 0 0 0 254) 254 (some 1) [(254, 9)], by decide, by decide, by decide, by decide, by decide, 9, by decide⟩
theorem witness_TwoByteNextPcFaults_notE : ∃ (a : Byte) (s : State), a.toNat < 8 ∧ 255 < s.pc.toNat + 2 ∧
    s.fl.map (·.getLsbD 0) = some false := ⟨0, st (regs3 0 0 0 254) 255 (some 2), by decide⟩

theorem witness_RegisterWriterFrame : ∃ (i : Instr) (a b : Byte) (s t : State),
    i ∈ [.ldi a b, .add a b, .mul a b, .mod a b, .and a b, .or a b, .xor a b, .shl a b, .shr a b, .not a] ∧
    exec i s = .next t := ⟨.add 7 7, 7, 7, State.reset, _, by decide, rfl⟩
theorem witness_NoRegisterWrittenFrame : ∃ (i : Instr) (a b : Byte) (s t : State),
    i ∈ [.cmp a b, .prn a, .jmp a, .jeq a, .jne a] ∧ exec i s = .next t := ⟨.prn 7, 7, 0, State.reset, _, by decide, rfl⟩
theorem witness_PushCallFrame : ∃ (i : Instr) (a : Byte) (s t : State) (p : Byte), i ∈ [.push a, .call a] ∧
    exec i s = .next t ∧ spDown s.sp = .ok p := ⟨.push 7, 7, State.reset, _, 254, by decide, rfl, by decide⟩
theorem witness_PushCallFrame_fault : ∃ (i : Instr) (a : Byte) (s t : State) (c : Cause), i ∈ [.push a, .call a] ∧
    exec i s = .next t ∧ spDown s.sp = .error c :=
  ⟨.call 7, 7, st (regs3 0 0 0 0), _, .outOfBounds .sp (-1), by decide, rfl, by decide⟩
theorem witness_PopRetFrame : ∃ (i : Instr) (a : Byte) (s t : State), i ∈ [.pop a, .ret] ∧ exec i s = .next t :=
  ⟨.pop 1, 1, st (regs3 0 0 0 0xFE) 0 none [(0xFE, 42)], _, by decide, rfl⟩
theorem witness_PopRetFrame_ret : ∃ (i : Instr) (a : Byte) (s t : State), i ∈ [.pop a, .ret] ∧ exec i s = .next t :=
  ⟨.ret, 1, st (regs3 0 0 0 0xFE) 0 none [(0xFE, 42)], _, by decide, rfl⟩
theorem witness_MemoryAccessPoint : ∃ (s : State) (v : Byte), s.cell 255 = some v ∧ s.cell 254 = none :=
  ⟨st (regs3 0 0 0 9) 0 none [(255, 3)], 3, by decide⟩
theorem witness_StackPointerNeverWraps : ∃ sp : Byte, sp ≠ 0 ∧ sp ≠ 255 := ⟨1, by decide⟩
theorem witness_ResultsFitEightBits : ∃ (mode : AluOverflow) (sel : AluSelect) (a b A B : Byte) (v : Int),
    alu mode sel a b A B = .error (.aluOverflow v) := ⟨.fault, .not, 0, 0, 0, 0, -1, by decide⟩

/-- The launched end-to-end image, whose first step is LDI R0, 8. -/
theorem witness_StepKeepsInvariant : ∃ s t : State, s.Inv ∧ step s = .next t :=
  ⟨st (regs3 0 0 0 255) 0 none [(0, 130), (1, 0), (2, 8)], _, ⟨rfl, trivial, by decide, fun _ h => by cases h⟩, rfl⟩
theorem witness_LaunchedRunsKeepInvariant : ∃ (cfg : Config) (image : List Byte) (s t : State),
    launch cfg image = .next s ∧ Reaches s t := ⟨Config.defaults, [71, 7], _, _, rfl, 1, rfl⟩
theorem witness_LatchesAreUnobservable : ∃ s t : State, s.forgetLatches = t.forgetLatches ∧ s ≠ t :=
  ⟨State.reset, { State.reset with mar := 9, draws := 3 }, by decide⟩
theorem witness_OnlyBitEIsRead : ∃ v w : Byte, v.getLsbD 0 = w.getLsbD 0 ∧ v ≠ w := ⟨2, 4, by decide⟩
theorem witness_FaultsArePrecise : ∃ s t : State, step s = .next t ∧ t.engine = .faulted := ⟨State.reset, _, rfl, rfl⟩
theorem witness_OnlyHltHalts : ∃ s t : State, step s = .next t ∧ t.engine = .halted :=
  ⟨st (regs3 0 0 0 9) 255 none [(255, 1)], _, rfl, rfl⟩
theorem witness_SoleWriters : ∃ (i : Instr) (s t : State), exec i s = .next t := ⟨.cmp 0 1, State.reset, _, rfl⟩
theorem witness_AluOpFaultIsUnreachable : ∃ (s t : State) (r : FaultRecord), step s = .next t ∧ s.fault = none ∧
    t.fault = some r := ⟨State.reset, _, _, rfl, rfl, rfl⟩
/-- PUSH R7 then POP R0. -/
theorem witness_PushPopRoundTrip : ∃ (a b : Byte) (s t u : State), a.toNat < 8 ∧ b.toNat < 8 ∧ s.engine = .running ∧
    exec (.push a) s = .next t ∧ t.engine = .running ∧ exec (.pop b) t = .next u ∧ u.engine = .running ∧ a = 7 ∧ b ≠ 7 :=
  ⟨7, 0, State.reset, _, _, by decide, by decide, rfl, rfl, rfl, rfl, rfl, rfl, by decide⟩
theorem witness_PushPopRoundTrip_plain : ∃ (a b : Byte) (s t u : State), a.toNat < 8 ∧ b.toNat < 8 ∧ s.engine = .running ∧
    exec (.push a) s = .next t ∧ t.engine = .running ∧ exec (.pop b) t = .next u ∧ u.engine = .running ∧ a ≠ 7 ∧ b ≠ 7 :=
  ⟨0, 1, State.reset, _, _, by decide, by decide, rfl, rfl, rfl, rfl, rfl, by decide, by decide⟩
theorem witness_PushPopRoundTrip_into_sp : ∃ (a b : Byte) (s t u : State), a.toNat < 8 ∧ b.toNat < 8 ∧ s.engine = .running ∧
    exec (.push a) s = .next t ∧ t.engine = .running ∧ exec (.pop b) t = .next u ∧ u.engine = .running ∧ a ≠ 7 ∧ b = 7 :=
  ⟨0, 7, State.reset, _, _, by decide, by decide, rfl, rfl, rfl, rfl, rfl, by decide, rfl⟩
theorem witness_PushPopRoundTrip_sp_sp : ∃ (a b : Byte) (s t u : State), a.toNat < 8 ∧ b.toNat < 8 ∧ s.engine = .running ∧
    exec (.push a) s = .next t ∧ t.engine = .running ∧ exec (.pop b) t = .next u ∧ u.engine = .running ∧ a = 7 ∧ b = 7 :=
  ⟨7, 7, State.reset, _, _, by decide, by decide, rfl, rfl, rfl, rfl, rfl, rfl, rfl⟩
theorem witness_CallRetPairing : ∃ (a : Byte) (s t u : State), a.toNat < 8 ∧ s.engine = .running ∧
    exec (.call a) s = .next t ∧ t.engine = .running ∧ u.sp = t.sp ∧ u.cell t.sp.toNat = t.cell t.sp.toNat :=
  ⟨1, State.reset, _, _, by decide, rfl, rfl, rfl, rfl, rfl⟩
theorem witness_LdiThenPrnOutputsValue : ∃ (a v : Byte) (s t u : State), s.engine = .running ∧
    exec (.ldi a v) s = .next t ∧ t.engine = .running ∧ exec (.prn a) t = .next u ∧ u.engine = .running :=
  ⟨3, 200, State.reset, _, _, rfl, rfl, rfl, rfl, rfl⟩
theorem witness_CmpDecidesBranches_equal : ∃ (a b d : Byte) (s t : State) (ha : a.toNat < 8) (hb : b.toNat < 8),
    d.toNat < 8 ∧ s.engine = .running ∧ exec (.cmp a b) s = .next t ∧ t.engine = .running ∧
    s.reg ⟨a.toNat, ha⟩ = s.reg ⟨b.toNat, hb⟩ ∧ t.pc.toNat + 2 ≤ 255 :=
  ⟨0, 1, 2, State.reset, _, by decide, by decide, by decide, rfl, rfl, rfl, by decide, by decide⟩
theorem witness_CmpDecidesBranches_unequal : ∃ (a b d : Byte) (s t : State) (ha : a.toNat < 8) (hb : b.toNat < 8),
    d.toNat < 8 ∧ s.engine = .running ∧ exec (.cmp a b) s = .next t ∧ t.engine = .running ∧
    s.reg ⟨a.toNat, ha⟩ ≠ s.reg ⟨b.toNat, hb⟩ ∧ t.pc.toNat + 2 ≤ 255 :=
  ⟨0, 7, 2, State.reset, _, by decide, by decide, by decide, rfl, rfl, rfl, by decide, by decide⟩
/-- The next opcode fetch is of the pushed byte. -/
theorem witness_StoredByteIsFetched : ∃ (i : Instr) (a : Byte) (s t u : State), a.toNat < 8 ∧ i ∈ [.push a, .call a] ∧
    s.engine = .running ∧ exec i s = .next t ∧ t.engine = .running ∧ u.mem = t.mem ∧ u.pc = t.sp :=
  ⟨.push 7, 7, st (regs3 0 0 0 3) 0, _, st (regs3 0 0 0 3) 2 none [(2, 2)], by decide, by decide, rfl, rfl, rfl, rfl, rfl⟩
/-- The next operand fetch is of the return address. -/
theorem witness_StoredByteIsFetched_operand : ∃ (i : Instr) (a : Byte) (s t u : State) (k : Nat), a.toNat < 8 ∧
    i ∈ [.push a, .call a] ∧ s.engine = .running ∧ exec i s = .next t ∧ t.engine = .running ∧ u.mem = t.mem ∧
    u.pc.toNat + k = t.sp.toNat :=
  ⟨.call 0, 0, st (regs3 0 0 0 3) 0, _, st (regs3 0 0 0 3) 0 none [(2, 2)], 2, by decide, by decide, rfl, rfl, rfl, rfl, rfl⟩
theorem witness_LaunchWritesImage : ∃ image : List Byte, image.length ≤ 256 := ⟨List.replicate 256 1, List.length_replicate.le⟩
theorem witness_LoadIsRefused : ∃ image : List Byte, 256 < image.length := ⟨List.replicate 257 1, List.length_replicate.ge⟩
theorem witness_LoadIsRefused_after_step : ∃ s t : State, step s = .next t := ⟨State.reset, _, rfl⟩
theorem witness_ResetValues : ∃ s : State, s.engine ≠ .running := ⟨{ State.reset with engine := .halted }, by decide⟩

end Sys2Proof.Tests
end

section
/-! The rows `EXT_ALU_DISPATCH` selects (00_scope.md R9): which they are, when they are dispatched, and what the
decoder answers for the opcode value of a row that is not. -/

namespace Sys2Proof

/-- The EXT rows are the seven operations R9 lists (00_scope.md R9). -/
theorem Mnemonic.isExt_iff_mem {m : Mnemonic} :
    m.isExt = true ↔ m ∈ [.and, .or, .xor, .not, .shl, .shr, .mod] := by
  cases m <;> decide

/-- An EXT row is dispatched exactly when `EXT_ALU_DISPATCH` is true (00_scope.md R9, 30_encoding.md R76). -/
theorem Config.dispatches_of_isExt (cfg : Config) {m : Mnemonic} (hm : m.isExt = true) :
    cfg.dispatches m = cfg.extAluDispatch := by
  simp [Config.dispatches, hm]

/-- With distinct values the value of a row that is not dispatched decodes to nothing: a row found for it would be
that row itself (30_encoding.md R76). -/
theorem decodeOpcode_get_of_not_dispatches {cfg : Config} (h : cfg.opcodes.distinct = true) {m : Mnemonic}
    (hm : cfg.dispatches m = false) : decodeOpcode cfg (cfg.opcodes.get m) = none := by
  refine decodeOpcode_none.mpr fun n hn hget => ?_
  obtain rfl : n = m := OpcodeMap.get_injective h hget
  exact Bool.false_ne_true (hm.symm.trans hn)

/-- Settles O5: an EXT row is dispatched exactly when the parameter is true, and with distinct values a row's opcode
decodes to that row when it is dispatched and to nothing when it is not. -/
theorem extRowsNeedTheParameter : Obligations.ExtRowsNeedTheParameter := by
  refine ⟨rfl, fun cfg m hdistinct hmem => ?_⟩
  have hdisp : cfg.dispatches m = cfg.extAluDispatch := cfg.dispatches_of_isExt (Mnemonic.isExt_iff_mem.mpr hmem)
  exact ⟨fun hoff => decodeOpcode_get_of_not_dispatches hdistinct (hdisp.trans hoff),
    fun hon => decodeOpcode_get hdistinct (hdisp.trans hon)⟩

end Sys2Proof
end

section
/-! One memory access (20_memory.md R53, R54): which check answers, in the order range before value, and what an
access that completes leaves behind. -/

namespace Sys2Proof.Machine

/-- The range check of a read comes first (20_memory.md R53). -/
theorem State.memRead_outOfBounds {s : State} {addr : Nat} (h : 255 < addr) :
    s.memRead addr = .error (.outOfBounds .addr addr) := if_pos h

/-- The range check of a write (20_memory.md R54). -/
theorem State.memWrite_outOfBounds {s : State} {addr : Nat} (h : 255 < addr) (v : Byte) :
    s.memWrite addr v = .error (.outOfBounds .addr addr) := if_pos h

/-- In range, the only other check of a read is that the cell holds a value (20_memory.md R53). -/
theorem State.memRead_uninitialized {s : State} {addr : Nat} (h : addr ≤ 255) (hc : s.cell addr = none) :
    s.memRead addr = .error (.uninitializedRead addr) := by
  simp only [State.memRead, if_neg (Nat.not_lt.mpr h), hc]

/-- In range, a write always completes (20_memory.md R54). -/
theorem State.memWrite_ok {s : State} {addr : Nat} (h : addr ≤ 255) (v : Byte) :
    s.memWrite addr v = .ok ((s.setLatches (BitVec.ofNat 8 addr) v).setCell addr v) := if_neg (Nat.not_lt.mpr h)

/-- A read that completed completes again with the same byte: it changed no cell (20_memory.md R53). -/
theorem State.memRead_again {s t : State} {addr : Nat} {v : Byte} (h : s.memRead addr = .ok (v, t)) :
    ∃ u, t.memRead addr = .ok (v, u) := by
  obtain ⟨hrange, hcell, rfl⟩ := State.memRead_ok_iff.mp h
  exact ⟨_, State.memRead_ok_iff.mpr ⟨hrange, by rwa [State.setLatches_cell], rfl⟩⟩

end Sys2Proof.Machine

namespace Sys2Proof

open Machine

/-- Settles O39: each check by its own lemma; a completed read only sets the latches, so it can be repeated, and a
completed write sets the latches and the one cell. -/
theorem memoryAccessPoint : Obligations.MemoryAccessPoint := by
  intro s addr
  refine ⟨fun hout => ⟨State.memRead_outOfBounds hout, State.memWrite_outOfBounds hout⟩,
    State.memRead_uninitialized, fun v hrange hcell => ?_, fun v hrange => ?_⟩
  · have hread := State.memRead_ok_iff.mpr ⟨hrange, hcell, rfl⟩
    exact ⟨_, hread, rfl, State.memRead_again hread⟩
  · refine ⟨_, State.memWrite_ok hrange v, ?_, fun other hother => ?_, rfl⟩
    · rw [State.setCell_cell, if_pos rfl]
    · rw [State.setCell_cell, if_neg hother, State.setLatches_cell]

end Sys2Proof
end

section
/-! The register-index check (40_dispatch.md R94): the first register operand of 8 or more is the check that fails, and
it is the first check of every instruction that has a register operand. -/

namespace Sys2Proof.Machine

/-- The check of an only register operand (40_dispatch.md R94). -/
theorem checkReg_error_of_find? {a x : Byte} (h : [a].find? (fun r => decide (8 ≤ r.toNat)) = some x) :
    checkReg a = .error (.outOfBounds .reg x.toNat) := by
  obtain ⟨hbad, rfl⟩ : 8 ≤ a.toNat ∧ a = x := by simpa using h
  exact checkReg_error hbad

/-- Of two register operands the second is reported only when the first passes (40_dispatch.md R94). -/
theorem checkRegs_error_of_find? {a b x : Byte} (h : [a, b].find? (fun r => decide (8 ≤ r.toNat)) = some x) :
    checkRegs a b = .error (.outOfBounds .reg x.toNat) := by
  rcases Nat.lt_or_ge a.toNat 8 with ha | ha
  · rw [List.find?_cons_of_neg (by simpa using ha)] at h
    simp only [checkRegs, checkReg_ok ha, checkReg_error_of_find? h]
  · rw [List.find?_cons_of_pos (by simpa using ha)] at h
    cases h
    simp only [checkRegs, checkReg_error ha]

/-- The register check comes before every other check of a two-register ALU instruction (60_exceptions.md R211). -/
theorem State.aluTwo_of_checkRegs_error {a b : Byte} {c : Cause} (h : checkRegs a b = .error c) (s : State)
    (sel : AluSelect) : s.aluTwo sel a b = .error c := by
  simp only [State.aluTwo, h]

/-- No check of an instruction comes before that of its register operands (40_dispatch.md R94, 60_exceptions.md R211). -/
theorem State.effect_of_badRegister (s : State) {i : Instr} {x : Byte}
    (h : i.registerOperands.find? (fun r => decide (8 ≤ r.toNat)) = some x) :
    s.effect i = .error (.outOfBounds .reg x.toNat) := by
  cases i with
  | hlt | ret => cases h
  | push a => simp only [State.effect, State.pushReg, checkReg_error_of_find? h]
  | pop a => simp only [State.effect, State.popReg, checkReg_error_of_find? h]
  | prn a => simp only [State.effect, State.print, checkReg_error_of_find? h]
  | call a => simp only [State.effect, State.callReg, checkReg_error_of_find? h]
  | jmp a => simp only [State.effect, State.jump, checkReg_error_of_find? h]
  | jeq a | jne a => simp only [State.effect, State.branch, checkReg_error_of_find? h]
  | not a => simp only [State.effect, State.aluOne, checkReg_error_of_find? h]
  | ldi a imm => simp only [State.effect, State.loadImmediate, checkReg_error_of_find? h]
  | add a b | mul a b | mod a b | cmp a b | and a b | or a b | xor a b | shl a b | shr a b =>
    simp only [State.effect, State.aluTwo_of_checkRegs_error (checkRegs_error_of_find? h)]

end Sys2Proof.Machine

namespace Sys2Proof

open Machine

/-- Settles O28: the register check is the first check of every instruction, so its fault is the one taken. -/
theorem badRegisterOperandFaults : Obligations.BadRegisterOperandFaults :=
  fun _ s _ h => exec_of_error (s.effect_of_badRegister h)

end Sys2Proof
end

section
/-! A step whose opcode fetch fails (40_dispatch.md R90, R91). -/

namespace Sys2Proof.Machine

/-- Nothing is decoded when the opcode cannot be fetched (40_dispatch.md R90). -/
theorem State.fetchInstr_of_fetchOpcode_error {s : State} {e : FetchFault} (h : s.fetchOpcode = .error e) :
    s.fetchInstr = .error e := by
  simp only [State.fetchInstr, h]

/-- A fault met before execution is taken in the state before the step (60_exceptions.md R206, R212). -/
theorem step_of_fetchInstr_error {s : State} {e : FetchFault} (hrun : s.engine = .running)
    (h : s.fetchInstr = .error e) : step s = .next (s.raise e.cause e.opcode).settle := by
  rw [step_running hrun, h]

end Sys2Proof.Machine

namespace Sys2Proof

open Machine

/-- Settles O7: the cell at the pc either holds the byte that is fetched or fails the fetch, and with it the step. -/
theorem opcodeFetch : Obligations.OpcodeFetch := by
  refine fun s => ⟨fun op hcell => State.fetchOpcode_some hcell, fun hcell => ?_⟩
  have hfetch := State.fetchOpcode_none hcell
  exact ⟨hfetch, fun hrun => step_of_fetchInstr_error hrun (State.fetchInstr_of_fetchOpcode_error hfetch)⟩

end Sys2Proof
end

section
/-! LDI, then PRN of the same register (42_ldi_prn.md R150 to R152): the commit of LDI is what PRN reads. -/

namespace Sys2Proof

open Machine

/-- Settles O54: an instruction that leaves the engine Running passed its checks, so both commits are known; they name
the same register, and PRN emits what LDI put there. -/
theorem ldiThenPrnOutputsValue : Obligations.LdiThenPrnOutputsValue := by
  intro a v s t u _ hldi ht hprn hu
  obtain ⟨ra, npc, hra, -, rfl⟩ := State.loadImmediate_ok_iff.mp (effect_ok_of_running hldi ht)
  obtain ⟨rb, npc', hrb, -, rfl⟩ := State.print_ok_iff.mp (effect_ok_of_running hprn hu)
  obtain rfl : ra = rb := Except.ok.inj (hra.symm.trans hrb)
  have hread : ((s.setReg ra v).setPc npc).reg ra = v := by rw [State.setPc_reg, State.setReg_reg, if_pos rfl]
  rw [State.setPc_out, State.emit_out, hread, State.setPc_out, State.setReg_out]

end Sys2Proof
end

section
/-! The stack pointer at the ends of memory (43_stack_call.md R161, R162). -/

namespace Sys2Proof.Machine

/-- No address lies below 0 (43_stack_call.md R161). -/
@[simp] theorem spDown_zero : spDown 0 = .error (.outOfBounds .sp (-1)) := rfl

/-- No address lies above 255 (43_stack_call.md R162). -/
@[simp] theorem spUp_top : spUp 255 = .error (.outOfBounds .sp 256) := rfl

end Sys2Proof.Machine

namespace Sys2Proof

open Machine

/-- Settles O40: at the one value that would wrap the operation faults; at every other the byte arithmetic is exact. -/
theorem stackPointerNeverWraps : Obligations.StackPointerNeverWraps := by
  refine fun sp => ⟨?zero, fun h => ⟨sp - 1, spDown_ok h, ?down⟩, ?top, fun h => ⟨sp + 1, spUp_ok h, ?up⟩⟩
  case zero => rintro rfl; exact spDown_zero
  case top => rintro rfl; exact spUp_top
  case down => bv_omega
  case up => bv_omega

end Sys2Proof
end

section
/-! PUSH, then POP (43_stack_call.md R163, R164, R167): the cell PUSH fills is the one POP reads. -/

namespace Sys2Proof.Machine

/-- A register check that passes answers the register its byte names (40_dispatch.md R94). -/
theorem eq_of_checkReg_ok {i : Byte} {r : Fin 8} (hi : i.toNat < 8) (h : checkReg i = .ok r) : r = ⟨i.toNat, hi⟩ :=
  Fin.ext (checkReg_ok_iff.mp h).symm

/-- PUSH R7 stores the decremented SP (92_eei_decisions.md D18). -/
@[simp] theorem State.regAfterDown_spIndex (s : State) (sp : Byte) : s.regAfterDown sp spIndex = sp := if_pos rfl

/-- The decrement of SP leaves every other register as it was. -/
theorem State.regAfterDown_of_ne {s : State} {sp : Byte} {a : Fin 8} (h : a ≠ spIndex) :
    s.regAfterDown sp a = s.reg a := if_neg h

/-- A PUSH that completes leaves the pushed byte on top of the stack, one cell down (43_stack_call.md R163). -/
theorem State.pushReg_top {s t : State} {a : Byte} (ha : a.toNat < 8) (h : s.pushReg a = .ok t) :
    t.sp = s.sp - 1 ∧ t.cell t.sp.toNat = some (s.regAfterDown (s.sp - 1) ⟨a.toNat, ha⟩) := by
  obtain ⟨ra, sp, npc, hra, hsp, -, rfl⟩ := State.pushReg_ok_iff.mp h
  obtain rfl := eq_of_checkReg_ok ha hra
  obtain ⟨-, rfl⟩ := spDown_ok_iff.mp hsp
  simp

/-- A POP that completes, by the byte on top of the stack: SP is incremented last, from that byte for POP R7; any
other operand register keeps the byte (43_stack_call.md R164). -/
theorem State.popReg_of_top {s t : State} {a v : Byte} (ha : a.toNat < 8) (hv : s.cell s.sp.toNat = some v)
    (h : s.popReg a = .ok t) :
    (a = 7 → t.sp = v + 1) ∧ (a ≠ 7 → t.reg ⟨a.toNat, ha⟩ = v ∧ t.sp = s.sp + 1) := by
  obtain ⟨ra, w, sp, npc, hra, hw, hsp, -, rfl⟩ := State.popReg_ok_iff.mp h
  obtain rfl := eq_of_checkReg_ok ha hra
  obtain rfl : v = w := Option.some.inj (hv.symm.trans hw)
  obtain ⟨-, rfl⟩ := spUp_ok_iff.mp hsp
  have hra7 : a ≠ 7 → (⟨a.toNat, ha⟩ : Fin 8) ≠ spIndex := mt (mk_eq_spIndex_iff ha).mp
  refine ⟨fun h7 => ?sp, fun h7 => ⟨?value, ?next⟩⟩
  case sp => rw [State.setPc_sp, State.setSp_sp, if_pos ((mk_eq_spIndex_iff ha).mpr h7)]
  case value => rw [State.setPc_reg, State.setSp_reg, if_neg (hra7 h7).symm, State.setReg_reg, if_pos rfl]
  case next => rw [State.setPc_sp, State.setSp_sp, if_neg (hra7 h7)]

end Sys2Proof.Machine

namespace Sys2Proof

open Machine

/-- Settles O52: both instructions committed, so POP takes the byte PUSH left on top of the stack; the four cases are
whether either operand is R7. -/
theorem pushPopRoundTrip : Obligations.PushPopRoundTrip := by
  intro a b s t u ha hb _ hpush ht hpop hu
  obtain ⟨hsp, htop⟩ := State.pushReg_top ha (effect_ok_of_running hpush ht)
  obtain ⟨hinto, hplain⟩ := State.popReg_of_top hb htop (effect_ok_of_running hpop hu)
  have hback : t.sp + 1 = s.sp := by rw [hsp, BitVec.sub_add_cancel]
  have hreg : a ≠ 7 → s.regAfterDown (s.sp - 1) ⟨a.toNat, ha⟩ = s.reg ⟨a.toNat, ha⟩ := fun h =>
    State.regAfterDown_of_ne (mt (mk_eq_spIndex_iff ha).mp h)
  have hself : a = 7 → s.regAfterDown (s.sp - 1) ⟨a.toNat, ha⟩ = s.sp - 1 := fun h => by
    rw [(mk_eq_spIndex_iff ha).mpr h, State.regAfterDown_spIndex]
  refine ⟨fun h7 hb7 => ?plain, fun h7 hb7 => ?intoSp, fun h7 hb7 => ?spToSp, fun h7 hb7 => ?spToReg⟩
  case plain => exact ⟨(hplain hb7).1.trans (hreg h7), (hplain hb7).2.trans hback⟩
  case intoSp => rw [hinto hb7, hreg h7]
  case spToSp => rw [hinto hb7, hself h7, BitVec.sub_add_cancel]
  case spToReg => exact ⟨(hplain hb7).1.trans (hself h7), (hplain hb7).2.trans hback⟩

end Sys2Proof
end

section
/-! FL is no input of the fetch, and bit E is the only bit of it that an instruction reads (10_state.md R28,
44_branch_halt.md R183). -/

namespace Sys2Proof.Machine

/-! ### Operations that do not read FL -/

@[simp] theorem State.withFl_seqPc (s : State) (f : Option Byte) (len : Nat) :
    (s.withFl f).seqPc len = s.seqPc len := rfl

@[simp] theorem State.withFl_regAfterDown (s : State) (f : Option Byte) (sp : Byte) (a : Fin 8) :
    (s.withFl f).regAfterDown sp a = s.regAfterDown sp a := rfl

theorem State.withFl_memRead (s : State) (f : Option Byte) (addr : Nat) :
    (s.withFl f).memRead addr = (s.memRead addr).map (Prod.map id (·.withFl f)) := by
  unfold State.memRead
  split_ifs
  · rfl
  · rw [State.withFl_cell]
    cases s.cell addr <;> rfl

theorem State.withFl_opByte (s : State) (f : Option Byte) (k : Nat) :
    (s.withFl f).opByte k = (s.opByte k).map (Prod.map id (·.withFl f)) := s.withFl_memRead f (s.pc.toNat + k)

theorem State.withFl_fetchTwo (s : State) (f : Option Byte) :
    (s.withFl f).fetchTwo = s.fetchTwo.map (Prod.map id (Prod.map id (·.withFl f))) := by
  simp only [State.fetchTwo, State.withFl_opByte]
  cases s.opByte 1 with
  | error c => rfl
  | ok p =>
    simp only [Except.map, Prod.map, State.withFl_opByte]
    cases p.2.opByte 2 <;> rfl

theorem State.withFl_fetchOperands (s : State) (f : Option Byte) (m : Mnemonic) :
    (s.withFl f).fetchOperands m = (s.fetchOperands m).map (Prod.map id (Prod.map id (·.withFl f))) := by
  unfold State.fetchOperands
  cases m.format with
  | f0 => rfl
  | f1r =>
    rw [State.withFl_opByte]
    cases s.opByte 1 <;> rfl
  | f2rr | f2ri => exact s.withFl_fetchTwo f

theorem State.withFl_fetchOpcode (s : State) (f : Option Byte) :
    (s.withFl f).fetchOpcode = s.fetchOpcode.map (Prod.map id (·.withFl f)) := by
  simp only [State.fetchOpcode, State.withFl_memRead, State.withFl_pc]
  cases s.memRead s.pc.toNat <;> rfl

/-- The fetch neither reads nor writes FL (40_dispatch.md R91 to R93). -/
theorem State.withFl_fetchInstr (s : State) (f : Option Byte) :
    (s.withFl f).fetchInstr = s.fetchInstr.map (Prod.map id (·.withFl f)) := by
  simp only [State.fetchInstr, State.withFl_fetchOpcode]
  cases s.fetchOpcode with
  | error e => rfl
  | ok p =>
    simp only [Except.map, Prod.map, id, State.withFl_cfg]
    cases decodeOpcode p.2.cfg p.1 with
    | none => rfl
    | some m =>
      simp only [State.withFl_fetchOperands]
      cases p.2.fetchOperands m <;> rfl

/-! ### The checks and the commit, with FL blanked in what is committed -/

/-- What an instruction answers, but for FL. -/
def blankFl (r : Except Cause State) : Except Cause State := r.map (·.withFl none)

theorem State.withFl_aluTwo (s : State) (f : Option Byte) (sel : AluSelect) (a b : Byte) :
    blankFl ((s.withFl f).aluTwo sel a b) = blankFl (s.aluTwo sel a b) := by
  simp only [State.aluTwo, State.withFl_cfg, State.withFl_reg, State.withFl_seqPc]
  cases checkRegs a b with
  | error c => rfl
  | ok p =>
    dsimp only
    cases alu s.cfg.aluOverflow sel a b (s.reg p.1) (s.reg p.2) with
    | error c => rfl
    | ok r => cases r <;> cases s.seqPc 3 <;> rfl

theorem State.withFl_aluOne (s : State) (f : Option Byte) (sel : AluSelect) (a : Byte) :
    blankFl ((s.withFl f).aluOne sel a) = blankFl (s.aluOne sel a) := by
  simp only [State.aluOne, State.withFl_cfg, State.withFl_reg, State.withFl_seqPc]
  cases checkReg a with
  | error c => rfl
  | ok ra =>
    dsimp only
    cases alu s.cfg.aluOverflow sel a a (s.reg ra) (s.reg ra) with
    | error c => rfl
    | ok r => cases r <;> cases s.seqPc 2 <;> rfl

theorem State.withFl_pushReg (s : State) (f : Option Byte) (a : Byte) :
    blankFl ((s.withFl f).pushReg a) = blankFl (s.pushReg a) := by
  simp only [State.pushReg, State.memWrite_byte, State.withFl_sp, State.withFl_seqPc, State.withFl_regAfterDown]
  cases checkReg a <;> cases spDown s.sp <;> cases s.seqPc 2 <;> rfl

theorem State.withFl_callReg (s : State) (f : Option Byte) (a : Byte) :
    blankFl ((s.withFl f).callReg a) = blankFl (s.callReg a) := by
  simp only [State.callReg, State.memWrite_byte, State.withFl_sp, State.withFl_seqPc, State.withFl_regAfterDown]
  cases checkReg a <;> cases spDown s.sp <;> cases s.seqPc 2 <;> rfl

theorem State.withFl_popReg (s : State) (f : Option Byte) (a : Byte) :
    blankFl ((s.withFl f).popReg a) = blankFl (s.popReg a) := by
  simp only [State.popReg, State.withFl_memRead, State.withFl_sp, State.withFl_seqPc]
  cases checkReg a with
  | error c => rfl
  | ok ra =>
    cases s.memRead s.sp.toNat with
    | error c => rfl
    | ok p =>
      simp only [Except.map, Prod.map, id]
      cases spUp (if ra = spIndex then p.1 else s.sp) <;> cases s.seqPc 2 <;> rfl

theorem State.withFl_returnFromCall (s : State) (f : Option Byte) :
    blankFl (s.withFl f).returnFromCall = blankFl s.returnFromCall := by
  simp only [State.returnFromCall, State.withFl_memRead, State.withFl_sp]
  cases s.memRead s.sp.toNat <;> cases spUp s.sp <;> rfl

theorem State.withFl_print (s : State) (f : Option Byte) (a : Byte) :
    blankFl ((s.withFl f).print a) = blankFl (s.print a) := by
  simp only [State.print, State.withFl_seqPc]
  cases checkReg a <;> cases s.seqPc 2 <;> rfl

theorem State.withFl_loadImmediate (s : State) (f : Option Byte) (a imm : Byte) :
    blankFl ((s.withFl f).loadImmediate a imm) = blankFl (s.loadImmediate a imm) := by
  simp only [State.loadImmediate, State.withFl_seqPc]
  cases checkReg a <;> cases s.seqPc 3 <;> rfl

theorem State.withFl_jump (s : State) (f : Option Byte) (a : Byte) :
    blankFl ((s.withFl f).jump a) = blankFl (s.jump a) := by
  unfold State.jump
  cases checkReg a <;> rfl

/-- A conditional branch depends on an FL byte through its bit E alone (44_branch_halt.md R182 to R185). -/
theorem State.branch_congr_flagE (s : State) {v w : Byte} (h : flagE v = flagE w) (wanted : Bool) (a : Byte) :
    blankFl ((s.withFl (some v)).branch wanted a) = blankFl ((s.withFl (some w)).branch wanted a) := by
  simp only [State.branch, State.readFl, State.withFl_fl, State.withFl_seqPc, h]
  cases checkReg a with
  | error c => rfl
  | ok ra =>
    by_cases htaken : flagE w = wanted
    · simp only [if_pos htaken]
      rfl
    · simp only [if_neg htaken]
      cases s.seqPc 2 <;> rfl

/-- No instruction but a conditional branch reads FL (10_state.md R27, R28). -/
theorem State.withFl_effect (s : State) (f : Option Byte) {i : Instr} (hi : ∀ a, i ≠ .jeq a ∧ i ≠ .jne a) :
    blankFl ((s.withFl f).effect i) = blankFl (s.effect i) := by
  cases i with
  | hlt => rfl
  | ret => exact s.withFl_returnFromCall f
  | push a => exact s.withFl_pushReg f a
  | pop a => exact s.withFl_popReg f a
  | prn a => exact s.withFl_print f a
  | call a => exact s.withFl_callReg f a
  | jmp a => exact s.withFl_jump f a
  | jeq a => exact absurd rfl (hi a).1
  | jne a => exact absurd rfl (hi a).2
  | not a => exact s.withFl_aluOne f .not a
  | ldi a imm => exact s.withFl_loadImmediate f a imm
  | cmp a b => exact s.withFl_aluTwo f .cmp a b
  | add a b | mul a b | mod a b | and a b | or a b | xor a b | shl a b | shr a b =>
    exact s.withFl_aluTwo f _ a b

/-- An instruction depends on an FL byte through its bit E alone (44_branch_halt.md R183). -/
theorem State.effect_congr_flagE (s : State) {v w : Byte} (h : flagE v = flagE w) (i : Instr) :
    blankFl ((s.withFl (some v)).effect i) = blankFl ((s.withFl (some w)).effect i) := by
  cases i with
  | jeq a => exact s.branch_congr_flagE h true a
  | jne a => exact s.branch_congr_flagE h false a
  | _ => rw [s.withFl_effect _ (by simp), s.withFl_effect _ (by simp)]

/-! ### Outcomes -/

/-- Two states differ at most in FL. -/
def AgreeOffFl (s t : State) : Prop := s.withFl none = t.withFl none

/-- Answers equal but for FL conclude alike: both commit, or both take the same fault. -/
theorem State.conclude_withFl_agree (s : State) (f g : Option Byte) (m : Mnemonic) {r q : Except Cause State}
    (h : blankFl r = blankFl q) : OutcomesAgree AgreeOffFl ((s.withFl f).conclude m r) ((s.withFl g).conclude m q) := by
  cases r with
  | ok t =>
    cases q with
    | ok u => exact Except.ok.inj h
    | error c => cases h
  | error c =>
    cases q with
    | ok u => cases h
    | error d =>
      obtain rfl : c = d := Except.error.inj h
      rfl

/-- FL values of one bit E lead an instruction to outcomes that differ at most in FL (44_branch_halt.md R183). -/
theorem exec_agree_of_flagE (i : Instr) (s : State) {v w : Byte} (h : flagE v = flagE w) :
    OutcomesAgree AgreeOffFl (exec i (s.withFl (some v))) (exec i (s.withFl (some w))) := by
  rw [exec_eq, exec_eq]
  exact s.conclude_withFl_agree _ _ _ (s.effect_congr_flagE h i)

/-- The values the latches hold between steps do not depend on FL (10_state.md R32). -/
theorem settleOutcome_agree {x y : Host.Outcome State Fault Refusal} (h : OutcomesAgree AgreeOffFl x y) :
    OutcomesAgree AgreeOffFl (settleOutcome x) (settleOutcome y) := by
  cases x <;> cases y
  case next.next t u => exact congrArg State.settle (show t.withFl none = u.withFl none from h)
  all_goals exact h

end Sys2Proof.Machine

namespace Sys2Proof

open Machine

/-- Settles O47: no step exists outside Running; in Running the fetch is the same whatever FL holds, and the fetched
instruction sees of FL bit E alone. -/
theorem onlyBitEIsRead : Obligations.OnlyBitEIsRead := by
  intro s v w hE
  cases hrun : s.engine with
  | halted | faulted => simp only [step, State.withFl_engine, hrun]; rfl
  | running =>
    rw [step_running ((s.withFl_engine _).trans hrun), step_running ((s.withFl_engine _).trans hrun),
      State.withFl_fetchInstr, State.withFl_fetchInstr]
    cases s.fetchInstr with
    | error e => rfl
    | ok p => exact settleOutcome_agree (exec_agree_of_flagE p.1 p.2 hE)

end Sys2Proof
end

section
/-! MOD by zero (60_exceptions.md R204): the ALU's check comes after the register checks and before the next pc. -/

namespace Sys2Proof.Machine

/-- What the ALU raises on valid register operands is the instruction's fault, whatever the pc (60_exceptions.md R211). -/
theorem State.aluTwo_of_alu_error {s : State} {sel : AluSelect} {a b : Byte} {c : Cause} (ha : a.toNat < 8)
    (hb : b.toNat < 8)
    (h : alu s.cfg.aluOverflow sel a b (s.reg ⟨a.toNat, ha⟩) (s.reg ⟨b.toNat, hb⟩) = .error c) :
    s.aluTwo sel a b = .error c := by
  simp only [State.aluTwo, checkRegs_ok ha hb, h]

/-- A zero divisor is an ArithmeticFault in either overflow mode (41_alu.md R129). -/
@[simp] theorem alu_mod_zero (mode : AluOverflow) (a b A : Byte) :
    alu mode .mod a b A 0 = .error (.arithmeticFault a b) := by
  simp [alu]

end Sys2Proof.Machine

namespace Sys2Proof

open Machine

/-- Settles O30: the divisor is the ALU's second input, and the ALU's fault is the instruction's. -/
theorem modByZeroFaults : Obligations.ModByZeroFaults := by
  intro a b s ha hb hzero
  have hmod : s.effect (.mod a b) = .error (.arithmeticFault a b) :=
    State.aluTwo_of_alu_error ha hb (by rw [hzero, alu_mod_zero])
  exact exec_of_error hmod

end Sys2Proof
end

section
/-! An opcode byte without a handler (60_exceptions.md R202). -/

namespace Sys2Proof.Machine

/-- Nothing is fetched after an opcode byte that decodes to no row (60_exceptions.md R202). -/
theorem State.fetchInstr_of_undecodable {s : State} {op : Byte} (hcell : s.cell s.pc.toNat = some op)
    (h : decodeOpcode s.cfg op = none) : s.fetchInstr = .error ⟨.invalidOpcode op, some op⟩ := by
  simp only [State.fetchInstr, State.fetchOpcode_some hcell, State.setIr_cfg, State.setLatches_cfg, h]

end Sys2Proof.Machine

namespace Sys2Proof

open Machine

/-- Settles O8: the value of an EXT row that is not dispatched decodes to nothing, as in the first case; the fetch then
fails before any operand byte is read. -/
theorem illegalOpcodeFaults : Obligations.IllegalOpcodeFaults := by
  intro s op hrun hcell hop
  have hnone : decodeOpcode s.cfg op = none := by
    rcases hop with hnone | ⟨hdistinct, hoff, m, hext, rfl⟩
    · exact hnone
    · exact decodeOpcode_get_of_not_dispatches hdistinct ((s.cfg.dispatches_of_isExt hext).trans hoff)
  exact step_of_fetchInstr_error hrun (State.fetchInstr_of_undecodable hcell hnone)

end Sys2Proof
end

section
/-! `Fit8` and the operations whose exact result can leave 0..255 (41_alu.md R111, 60_exceptions.md R210). -/

namespace Sys2Proof.Machine

/-- The byte `Fit8` answers stands for the residue of the exact value (41_alu.md R111). -/
theorem toNat_ofInt_byte (v : Int) : ((BitVec.ofInt 8 v).toNat : Int) = v % 256 := by
  rw [BitVec.toNat_ofInt, Int.toNat_of_nonneg (Int.emod_nonneg v (by decide))]
  rfl

/-- An exact result that is a byte never faults (41_alu.md R111). -/
theorem fitResult_byte_ne_error {mode : AluOverflow} {n : Nat} {c : Cause} (h : n ≤ 255) :
    fitResult mode (n : Int) ≠ .error c := by
  rw [fitResult_byte h]
  nofun

/-- AluOverflow comes from the four operations whose exact result can leave 0..255; those of the others are bytes or
are not narrowed at all (60_exceptions.md R210). -/
theorem alu_aluOverflow_cases {mode : AluOverflow} {sel : AluSelect} {a b A B : Byte} {v : Int}
    (h : alu mode sel a b A B = .error (.aluOverflow v)) :
    mode = .fault ∧ ¬(0 ≤ v ∧ v ≤ 255) ∧ sel ∈ [AluSelect.add, .mul, .shl, .not] := by
  have hA : A.toNat ≤ 255 := Nat.le_of_lt_succ A.isLt
  cases sel with
  | add | mul | shl | not =>
    obtain ⟨hmode, hrange, hv⟩ := fitResult_error_iff.mp h
    obtain rfl := Cause.aluOverflow.inj hv
    exact ⟨hmode, hrange, by decide⟩
  | and | or | xor => exact absurd h (fitResult_byte_ne_error (Nat.le_of_lt_succ (BitVec.isLt _)))
  | shr => exact absurd h (fitResult_byte_ne_error ((Nat.div_le_self _ _).trans hA))
  | mod =>
    simp only [alu] at h
    split_ifs at h
    · cases h
    · exact absurd h (fitResult_byte_ne_error ((Nat.mod_le _ _).trans hA))
  | cmp | outside n => cases h

end Sys2Proof.Machine

namespace Sys2Proof

open Machine

/-- Settles O41: the byte answered is the residue mod 256, which a value of 0..255 is itself. -/
theorem resultsFitEightBits : Obligations.ResultsFitEightBits := by
  refine ⟨fun mode v hlow hhigh => ⟨_, fit8_ok ⟨hlow, hhigh⟩, ?_⟩, fun v => ⟨_, fit8_wrap v, toNat_ofInt_byte v⟩,
    fun v hv => fit8_error_iff.mpr ⟨rfl, hv, rfl⟩, fun _ _ _ _ _ _ _ => alu_aluOverflow_cases⟩
  rw [toNat_ofInt_byte, Int.emod_eq_of_lt hlow (by omega)]

end Sys2Proof
end

section
/-! Where a fault comes from (60_exceptions.md R206, R211): an instruction that commits records none, so a step that
records one failed in the fetch or at a check. -/

namespace Sys2Proof.Machine

@[simp] theorem State.writeAlu_engine (s : State) (a : Fin 8) (r : AluOutput) : (s.writeAlu a r).engine = s.engine := by
  cases r <;> rfl

@[simp] theorem State.writeAlu_fault (s : State) (a : Fin 8) (r : AluOutput) : (s.writeAlu a r).fault = s.fault := by
  cases r <;> rfl

/-- The write-back of a two-register ALU instruction touches neither the engine nor the fault record (41_alu.md R110). -/
theorem State.aluTwo_ok_control {s t : State} {sel : AluSelect} {a b : Byte} (h : s.aluTwo sel a b = .ok t) :
    t.fault = s.fault ∧ (t.engine = s.engine ∨ t.engine = .halted) := by
  obtain ⟨ra, rb, r, npc, -, -, -, -, rfl⟩ := State.aluTwo_ok_iff.mp h
  exact ⟨s.writeAlu_fault ra r, .inl (s.writeAlu_engine ra r)⟩

/-- What an instruction commits records no fault, and leaves the engine as it was but for HLT (10_state.md R30, R34). -/
theorem State.effect_ok_control {s t : State} {i : Instr} (h : s.effect i = .ok t) :
    t.fault = s.fault ∧ (t.engine = s.engine ∨ t.engine = .halted) := by
  cases i with
  | hlt =>
    cases h
    exact ⟨rfl, .inr rfl⟩
  | ret =>
    obtain ⟨v, sp, -, -, rfl⟩ := State.returnFromCall_ok_iff.mp h
    exact ⟨rfl, .inl rfl⟩
  | push a =>
    obtain ⟨ra, sp, npc, -, -, -, rfl⟩ := State.pushReg_ok_iff.mp h
    exact ⟨rfl, .inl rfl⟩
  | pop a =>
    obtain ⟨ra, v, sp, npc, -, -, -, -, rfl⟩ := State.popReg_ok_iff.mp h
    exact ⟨rfl, .inl rfl⟩
  | prn a =>
    obtain ⟨ra, npc, -, -, rfl⟩ := State.print_ok_iff.mp h
    exact ⟨rfl, .inl rfl⟩
  | call a =>
    obtain ⟨ra, sp, back, -, -, -, rfl⟩ := State.callReg_ok_iff.mp h
    exact ⟨rfl, .inl rfl⟩
  | jmp a =>
    obtain ⟨ra, -, rfl⟩ := State.jump_ok_iff.mp h
    exact ⟨rfl, .inl rfl⟩
  | jeq a | jne a =>
    obtain ⟨ra, fl, -, -, ⟨-, rfl⟩ | ⟨-, npc, -, rfl⟩⟩ := State.branch_ok_iff.mp h
    · exact ⟨rfl, .inl rfl⟩
    · exact ⟨rfl, .inl rfl⟩
  | not a =>
    obtain ⟨ra, r, npc, -, -, -, rfl⟩ := State.aluOne_ok_iff.mp h
    exact ⟨s.writeAlu_fault ra r, .inl (s.writeAlu_engine ra r)⟩
  | ldi a imm =>
    obtain ⟨ra, npc, -, -, rfl⟩ := State.loadImmediate_ok_iff.mp h
    exact ⟨rfl, .inl rfl⟩
  | cmp a b => exact State.aluTwo_ok_control (sel := .cmp) h
  | add a b | mul a b | mod a b | and a b | or a b | xor a b | shl a b | shr a b => exact State.aluTwo_ok_control h

/-- The record of a failed fetch names the byte in the cell at the pc, none when it holds no value (10_state.md R34). -/
theorem State.fetchInstr_error_opcode {s : State} {e : FetchFault} (h : s.fetchInstr = .error e) :
    e.opcode = s.cell s.pc.toNat := by
  rcases s.fetchInstr_cases with ⟨hcell, hf⟩ | ⟨op, hcell, ⟨-, hf⟩ | ⟨m, -, ⟨c, hf, -⟩ | ⟨i, t, hf, -, -⟩⟩⟩
  case inr.inr.inr => cases hf.symm.trans h
  all_goals
    obtain rfl := Except.error.inj (hf.symm.trans h)
    exact hcell.symm

/-- A fetched instruction's row has the byte in the cell at the pc as its value, and only the latches have moved
(30_encoding.md R76, 40_dispatch.md R91 to R93). -/
theorem State.fetchInstr_ok {s u : State} {i : Instr} (h : s.fetchInstr = .ok (i, u)) :
    s.cell s.pc.toNat = some (s.cfg.opcodes.get i.mnemonic) ∧ u.forgetLatches = s.forgetLatches := by
  rcases s.fetchInstr_cases with ⟨-, hf⟩ | ⟨op, hcell, ⟨-, hf⟩ | ⟨m, hrow, ⟨c, hf, -⟩ | ⟨j, t, hf, rfl, hlatches⟩⟩⟩
  case inr.inr.inr =>
    cases hf.symm.trans h
    exact ⟨by rw [hcell, (decodeOpcode_some hrow).2], hlatches⟩
  all_goals cases hf.symm.trans h

/-- Everything a step can do to the fault record: it keeps it and does not enter Faulted; or the fetch fails; or a check
of the fetched instruction fails, in a state in which only the latches have moved (60_exceptions.md R206, R211). -/
theorem step_fault_cases {s t : State} (h : step s = .next t) :
    (t.fault = s.fault ∧ t.engine ≠ .faulted) ∨
    (∃ e, s.fetchInstr = .error e ∧ t = (s.raise e.cause e.opcode).settle) ∨
    ∃ i u c, s.fetchInstr = .ok (i, u) ∧ u.effect i = .error c ∧
      t = (u.raise c (some (u.cfg.opcodes.get i.mnemonic))).settle := by
  rcases step_cases h with hfetch | ⟨i, u, v, hf, hexec, rfl⟩
  · exact .inr (.inl hfetch)
  · rcases exec_next_cases hexec with hok | ⟨c, herr, rfl⟩
    · obtain ⟨hfault, hengine⟩ := State.effect_ok_control hok
      obtain ⟨-, -, -, -, hsame, -, hkept, -⟩ := State.forgetLatches_eq_iff.mp (State.fetchInstr_ok hf).2
      have hrun : u.engine = .running := hsame.trans (running_of_step h)
      refine .inl ⟨hfault.trans hkept, ?_⟩
      rcases hengine with he | he <;> simp [he, hrun]
    · exact .inr (.inr ⟨i, u, c, hf, herr, rfl⟩)

/-! ### Up to the latches -/

@[simp] theorem State.settle_forgetLatches (s : State) : s.settle.forgetLatches = s.forgetLatches := rfl

/-- Taking a fault depends on no latch (10_state.md R32, 60_exceptions.md R206). -/
theorem State.raise_forgetLatches_congr {s t : State} (h : s.forgetLatches = t.forgetLatches) (c : Cause)
    (op : Option Byte) : (s.raise c op).forgetLatches = (t.raise c op).forgetLatches :=
  congrArg (State.raise · c op) h

end Sys2Proof.Machine

namespace Sys2Proof

open Machine

/-- Settles O48: a step into Faulted failed in the fetch, or at a check of an instruction whose row has the byte at the
pc as its value; both faults are taken in the state before, up to the latches. -/
theorem faultsArePrecise : Obligations.FaultsArePrecise := by
  intro s t hstep hfaulted
  rcases step_fault_cases hstep with ⟨-, hne⟩ | ⟨e, hf, rfl⟩ | ⟨i, u, c, hf, -, rfl⟩
  · exact absurd hfaulted hne
  · exact ⟨e.cause, by rw [State.settle_forgetLatches, State.fetchInstr_error_opcode hf]⟩
  · obtain ⟨hcell, hlatches⟩ := State.fetchInstr_ok hf
    have hcfg : u.cfg = s.cfg := congrArg (·.cfg) hlatches
    exact ⟨c, by rw [State.settle_forgetLatches, hcell, hcfg, State.raise_forgetLatches_congr hlatches]⟩

end Sys2Proof
end

section
/-! AluOpFault (60_exceptions.md R203): the ALU alone raises it, for a select that no instruction has. -/

namespace Sys2Proof.Machine

/-- The ALU answers AluOpFault exactly for a select outside its set (41_alu.md R113). -/
@[simp] theorem alu_eq_aluOpFault_iff {mode : AluOverflow} {sel : AluSelect} {a b A B : Byte} {n : Nat} :
    alu mode sel a b A B = .error (.aluOpFault n) ↔ sel = .outside n := by
  constructor
  · intro h
    rcases alu_error_cases h with ⟨-, v, hc, -⟩ | ⟨-, -, hc⟩ | ⟨k, rfl, hc⟩
    · cases hc
    · cases hc
    · rw [Cause.aluOpFault.inj hc]
  · rintro rfl
    rfl

/-! ### The checks that are not the ALU's -/

section
variable {n : Nat}

@[simp] theorem checkReg_ne_aluOpFault (i : Byte) : checkReg i ≠ .error (.aluOpFault n) :=
  fun h => nomatch checkReg_error_cause h

@[simp] theorem checkRegs_ne_aluOpFault (a b : Byte) : checkRegs a b ≠ .error (.aluOpFault n) :=
  fun h => (checkRegs_error_cause h).elim nofun nofun

@[simp] theorem State.seqPc_ne_aluOpFault (s : State) (len : Nat) : s.seqPc len ≠ .error (.aluOpFault n) :=
  fun h => nomatch State.seqPc_error_code h

@[simp] theorem spDown_ne_aluOpFault (sp : Byte) : spDown sp ≠ .error (.aluOpFault n) :=
  fun h => nomatch spDown_error_cause h

@[simp] theorem spUp_ne_aluOpFault (sp : Byte) : spUp sp ≠ .error (.aluOpFault n) :=
  fun h => nomatch spUp_error_cause h

@[simp] theorem State.memRead_ne_aluOpFault (s : State) (addr : Nat) : s.memRead addr ≠ .error (.aluOpFault n) :=
  fun h => (memRead_error_code h).elim nofun nofun

@[simp] theorem State.readFl_ne_aluOpFault (s : State) : s.readFl ≠ .error (.aluOpFault n) :=
  fun h => nomatch State.readFl_error_cause h

end

/-- No instruction gives the ALU a select outside its set, and no other check raises AluOpFault (60_exceptions.md R203). -/
theorem State.effect_ne_aluOpFault (s : State) (i : Instr) (n : Nat) : s.effect i ≠ .error (.aluOpFault n) := by
  intro h
  cases i with
  | hlt => cases h
  | ret => simpa using State.returnFromCall_error_cases h
  | push a => simpa using State.pushReg_error_cases h
  | pop a => simpa using State.popReg_error_cases h
  | prn a => simpa using State.print_error_cases h
  | call a => simpa using State.callReg_error_cases h
  | jmp a => simpa using State.jump_error_cases h
  | jeq a | jne a => simpa using State.branch_error_cases h
  | not a => simpa using State.aluOne_error_cases h
  | ldi a imm => simpa using State.loadImmediate_error_cases h
  | cmp a b => simpa using State.aluTwo_error_cases (sel := .cmp) h
  | add a b | mul a b | mod a b | and a b | or a b | xor a b | shl a b | shr a b =>
    simpa using State.aluTwo_error_cases h

/-- The fetch does not use the ALU (40_dispatch.md R91 to R93). -/
theorem State.fetchInstr_error_ne_aluOpFault {s : State} {e : FetchFault} (h : s.fetchInstr = .error e) (n : Nat) :
    e.cause ≠ .aluOpFault n := by
  rcases s.fetchInstr_cases with
    ⟨-, hf⟩ | ⟨op, -, ⟨-, hf⟩ | ⟨m, -, ⟨c, hf, k, rfl | ⟨addr, rfl⟩⟩ | ⟨i, t, hf, -, -⟩⟩⟩
  case inr.inr.inr => cases hf.symm.trans h
  all_goals
    obtain rfl := Except.error.inj (hf.symm.trans h)
    nofun

end Sys2Proof.Machine

namespace Sys2Proof

open Machine

/-- Settles O51: a record that was not there before is that of a failed fetch or of a failed check of an instruction,
and neither raises AluOpFault. -/
theorem aluOpFaultIsUnreachable : Obligations.AluOpFaultIsUnreachable := by
  refine ⟨fun _ _ _ _ _ _ => alu_eq_aluOpFault_iff.mpr rfl, fun s t r hstep hnone hsome n => ?_⟩
  rcases step_fault_cases hstep with ⟨hkept, -⟩ | ⟨e, hf, rfl⟩ | ⟨i, u, c, -, herr, rfl⟩
  · cases hsome.symm.trans (hkept.trans hnone)
  · cases hsome
    exact State.fetchInstr_error_ne_aluOpFault hf n
  · cases hsome
    rintro rfl
    exact u.effect_ne_aluOpFault i n herr

end Sys2Proof
end

section
/-! What a reset state holds (10_state.md R36, 70_reset_and_hazards.md R230). -/

namespace Sys2Proof.Machine

/-- The registers below R7 are 0 at reset (10_state.md R36). -/
theorem State.resetWith_reg {j : Fin 8} (cfg : Config) (hj : j.val < 7) : (State.resetWith cfg).reg j = 0 := by
  have hregs : ∀ i : Fin 7, (State.resetWith cfg).reg i.castSucc = 0
    | 0 | 1 | 2 | 3 | 4 | 5 | 6 => rfl
  exact hregs ⟨j.val, hj⟩

/-- The stack pointer is `SP_RESET` at reset (10_state.md R36). -/
@[simp] theorem State.resetWith_sp (cfg : Config) : (State.resetWith cfg).sp = cfg.spReset := rfl

/-- No cell holds a value at reset (10_state.md R36). -/
@[simp] theorem State.resetWith_cell (cfg : Config) (addr : Nat) : (State.resetWith cfg).cell addr = none := rfl

end Sys2Proof.Machine

namespace Sys2Proof

open Machine

/-- Settles O59: reset looks only at the configuration of the state it leaves, and a state with a step is Running. -/
theorem resetValues : Obligations.ResetValues := by
  intro s
  have hstuck : s.engine ≠ .running → ∀ t, step s ≠ .next t := fun hne _ hstep => hne (running_of_step hstep)
  exact ⟨fun _ => State.resetWith_reg s.cfg, State.resetWith_sp s.cfg, rfl, rfl, State.resetWith_cell s.cfg, rfl, rfl,
    rfl, rfl, hstuck, State.resetWith_sp Config.defaults, rfl⟩

end Sys2Proof
end

section
/-! What the decoder answers, as one equivalence (30_encoding.md R71, R76): a byte that decodes to a row, the row's
operand bytes, and the rest. -/

namespace Sys2Proof

/-- A row takes the first operand bytes it is given, as many as its format has (30_encoding.md R71). -/
theorem Mnemonic.build_operands_take (m : Mnemonic) (a b : Byte) :
    (m.build a b).operands = [a, b].take m.format.operandCount := by
  cases m <;> rfl

/-- The operand bytes of a row's instruction are what the decoder takes after its opcode (30_encoding.md R71). -/
theorem decode_of_row {cfg : Config} {op : Byte} {i : Instr} (h : decodeOpcode cfg op = some i.mnemonic)
    (rest : List Byte) : decode cfg (op :: (i.operands ++ rest)) = .ok (i, rest) := by
  simp only [decode, h]
  cases i <;> rfl

/-- Bytes decode to an instruction and a rest exactly when they are a byte that decodes to the instruction's row, its
operand bytes and the rest (30_encoding.md R71, R76). -/
theorem decode_ok_iff {cfg : Config} {bytes rest : List Byte} {i : Instr} :
    decode cfg bytes = .ok (i, rest) ↔
      ∃ op, decodeOpcode cfg op = some i.mnemonic ∧ bytes = op :: (i.operands ++ rest) := by
  constructor
  case mpr => rintro ⟨op, hrow, rfl⟩; exact decode_of_row hrow rest
  intro h
  cases bytes with
  | nil => cases h
  | cons op tail =>
    cases hrow : decodeOpcode cfg op with
    | none => simp [decode, hrow] at h
    | some m =>
      simp only [decode, hrow] at h
      split at h <;> cases h
      all_goals
        refine ⟨op, by rw [hrow, Mnemonic.build_mnemonic], ?_⟩
        rw [Mnemonic.build_operands_take, ‹m.format.operandCount = _›]
        rfl

/-- Settles O1: with distinct values a dispatched row's value decodes to that row, whose operand bytes the decoder
takes. -/
theorem decodeEncodeRoundTrip : Obligations.DecodeEncodeRoundTrip :=
  fun _ _ rest hdistinct hdispatched => decode_of_row (decodeOpcode_get hdistinct hdispatched) rest

/-- Settles O2: the first byte decodes to the instruction's row, so it is that row's value and the row is dispatched. -/
theorem decodeReadsOnlyEncodings : Obligations.DecodeReadsOnlyEncodings := by
  intro cfg bytes rest i h
  obtain ⟨op, hrow, rfl⟩ := decode_ok_iff.mp h
  obtain ⟨hdispatched, rfl⟩ := decodeOpcode_some hrow
  exact ⟨hdispatched, rfl⟩

/-- Settles O3: each word is looked up in the table of its configuration. -/
theorem specWordsDecode : Obligations.SpecWordsDecode :=
  ⟨rfl, rfl, rfl, rfl, rfl, rfl, rfl, rfl, rfl⟩

end Sys2Proof
end

section
/-! The default opcode table (30_encoding.md R75), and how many opcode bytes a configuration leaves without a handler
(R77). -/

namespace Sys2Proof

/-- The rows a configuration dispatches (00_scope.md R9). -/
def Config.rows (cfg : Config) : List Mnemonic := Mnemonic.all.filter cfg.dispatches

/-- The bytes with a handler are the values of the dispatched rows (30_encoding.md R76). -/
theorem decodeOpcode_isSome_iff {cfg : Config} (h : cfg.opcodes.distinct = true) {op : Byte} :
    (decodeOpcode cfg op).isSome = true ↔ ∃ m ∈ cfg.rows, cfg.opcodes.get m = op := by
  simp only [Config.rows, List.mem_filter, Mnemonic.mem_all, true_and]
  constructor
  · intro hsome
    obtain ⟨m, hm⟩ := Option.isSome_iff_exists.mp hsome
    exact ⟨m, decodeOpcode_some hm⟩
  · rintro ⟨m, hm, rfl⟩
    rw [decodeOpcode_get h hm]
    rfl

/-- With distinct values every dispatched row takes one byte of the 256, and the others have no handler (30_encoding.md
R76, R77). -/
theorem length_illegal_add_length_rows {cfg : Config} (h : cfg.opcodes.distinct = true) :
    ((List.range 256).filter fun n => (decodeOpcode cfg (BitVec.ofNat 8 n)).isNone).length + cfg.rows.length = 256 := by
  have hinj : Function.Injective fun m => (cfg.opcodes.get m).toNat := fun _ _ he =>
    OpcodeMap.get_injective h (BitVec.eq_of_toNat_eq he)
  have hrows : cfg.rows.Nodup := List.Nodup.filter _ (by decide)
  have hlegal : ((List.range 256).filter fun n => (decodeOpcode cfg (BitVec.ofNat 8 n)).isSome).Perm
      (cfg.rows.map fun m => (cfg.opcodes.get m).toNat) := by
    refine (List.perm_ext_iff_of_nodup (List.nodup_range.filter _) (hrows.map hinj)).mpr fun n => ?_
    simp only [List.mem_filter, List.mem_range, List.mem_map, decodeOpcode_isSome_iff h]
    constructor
    · rintro ⟨hn, m, hm, he⟩
      exact ⟨m, hm, by rw [he, BitVec.toNat_ofNat, Nat.mod_eq_of_lt hn]⟩
    · rintro ⟨m, hm, rfl⟩
      exact ⟨BitVec.isLt _, m, hm, by simp⟩
  have hsplit := List.length_eq_length_filter_add (l := List.range 256)
    fun n => (decodeOpcode cfg (BitVec.ofNat 8 n)).isSome
  rw [hlegal.length_eq, List.length_map, List.length_range] at hsplit
  simp only [Option.not_isSome] at hsplit
  omega

/-- Settles O4: the operand counts row by row; 13 rows are dispatched by default and 20 with the EXT rows, and the other
bytes have no handler. -/
theorem defaultOpcodeTableShape : Obligations.DefaultOpcodeTableShape := by
  refine ⟨fun m => by cases m <;> rfl, ?byDefault, ?withExt⟩
  case byDefault =>
    have hrows : Config.defaults.rows.length = 13 := rfl
    have := length_illegal_add_length_rows (cfg := Config.defaults) (by decide)
    omega
  case withExt =>
    have hrows : Config.allRows.rows.length = 20 := rfl
    have := length_illegal_add_length_rows (cfg := Config.allRows) (by decide)
    omega

end Sys2Proof
end

section
/-! What each instruction leaves unchanged (10_state.md R20 to R34, 20_memory.md R51): one footprint for all of them,
whether they complete or take a fault. -/

namespace Sys2Proof.Machine

/-- The registers an instruction may write: its operand, SP, or both (10_state.md R23). -/
def WritesReg : Instr → Fin 8 → Prop
  | .hlt, _ | .prn _, _ | .jmp _, _ | .jeq _, _ | .jne _, _ | .cmp _ _, _ => False
  | .ret, j | .push _, j | .call _, j => j = spIndex
  | .pop a, j => j.val = a.toNat ∨ j = spIndex
  | .not a, j | .ldi a _, j | .add a _, j | .mul a _, j | .mod a _, j | .and a _, j | .or a _, j | .xor a _, j
  | .shl a _, j | .shr a _, j => j.val = a.toNat

/-- The instructions that access memory, and so move MAR and MDR (43_stack_call.md). -/
def UsesStack : Instr → Prop
  | .ret | .push _ | .pop _ | .call _ => True
  | _ => False

/-- What may differ between the state before an instruction and the state it answers; a fault is one of the two cases of
`ControlFrame`. A field that a proof does not give holds by definition of the two states. -/
structure Footprint (i : Instr) (s t : State) : Prop where
  reg : ∀ j, ¬ WritesReg i j → t.reg j = s.reg j := by intros; rfl
  fl : (∀ a b, i ≠ .cmp a b) → t.fl = s.fl := by intros; rfl
  out : (∀ a, i ≠ .prn a) → t.out = s.out := by intros; rfl
  mem : (∀ a, i ≠ .push a ∧ i ≠ .call a) → t.mem = s.mem := by intros; rfl
  /-- Only the cell at the decremented SP may change, and none when SP cannot be decremented. -/
  cell : ∀ addr, (∀ p, spDown s.sp = .ok p → addr ≠ p.toNat) → t.cell addr = s.cell addr := by intros; rfl
  latches : ¬ UsesStack i → t.mar = s.mar ∧ t.mdr = s.mdr := by intros; exact ⟨rfl, rfl⟩
  cfg : t.cfg = s.cfg := by rfl
  control : i ≠ .hlt → ControlFrame i s t := by intros; exact ⟨rfl, rfl, rfl, .inl ⟨rfl, rfl⟩⟩

section
variable {i : Instr} {s t : State}

/-- A branch writes the pc alone (44_branch_halt.md). -/
theorem setPc_footprint (npc : Byte) : Footprint i s (s.setPc npc) := {}

/-- A fault leaves everything but the engine and the fault record (60_exceptions.md R206). -/
theorem raise_footprint (c : Cause) : Footprint i s (s.raise c (some (s.cfg.opcodes.get i.mnemonic))) where
  control _ := ⟨rfl, rfl, rfl, .inr ⟨c, rfl⟩⟩

/-- A result goes to a register the instruction writes (41_alu.md R110, 42_ldi_prn.md R150). -/
theorem setReg_footprint {ra : Fin 8} (v npc : Byte) (hw : WritesReg i ra) :
    Footprint i s ((s.setReg ra v).setPc npc) where
  reg j hj := by
    have hne : ra ≠ j := fun h => hj (h ▸ hw)
    rw [State.setPc_reg, State.setReg_reg, if_neg hne]

/-- The store of PUSH and CALL: SP and the cell it then names (43_stack_call.md R163, R165). -/
theorem store_footprint {sp : Byte} (v npc : Byte) (hsp : spDown s.sp = .ok sp) (hi : ∃ a, i = .push a ∨ i = .call a) :
    Footprint i s ((((s.setSp sp).setLatches sp v).setCell sp.toNat v).setPc npc) where
  reg j hj := by
    have hw : WritesReg i spIndex := by
      obtain ⟨a, rfl | rfl⟩ := hi
      · exact rfl
      · exact rfl
    have hne : spIndex ≠ j := fun h => hj (h ▸ hw)
    simp [hne]
  mem h := by
    obtain ⟨a, ha | ha⟩ := hi
    · exact absurd ha (h a).1
    · exact absurd ha (h a).2
  cell addr haddr := by simp [haddr sp hsp]
  latches h := absurd (by obtain ⟨a, rfl | rfl⟩ := hi <;> trivial) h

/-- A two-register ALU instruction but CMP writes its result to its first operand (41_alu.md R110). -/
theorem aluTwo_footprint {sel : AluSelect} {a b : Byte} (hsel : sel ≠ .cmp)
    (hw : ∀ j : Fin 8, j.val = a.toNat → WritesReg i j) (h : s.aluTwo sel a b = .ok t) : Footprint i s t := by
  obtain ⟨ra, rb, r, npc, hra, -, hr, -, rfl⟩ := State.aluTwo_ok_iff.mp h
  obtain ⟨hcmp, -⟩ | ⟨-, v, rfl⟩ := alu_ok_cases hr
  · exact absurd hcmp hsel
  · exact setReg_footprint v npc (hw ra (checkReg_ok_iff.mp hra).symm)

/-- CMP writes FL and the pc (41_alu.md R122). -/
theorem cmp_footprint {a b : Byte} (h : s.aluTwo .cmp a b = .ok t) : Footprint (.cmp a b) s t := by
  obtain ⟨ra, rb, r, npc, -, -, hr, -, rfl⟩ := State.aluTwo_ok_iff.mp h
  obtain ⟨-, rfl⟩ | ⟨hne, -⟩ := alu_ok_cases hr
  case inr => exact absurd rfl hne
  exact { fl := fun h => absurd rfl (h a b) }

/-- PRN writes the output and the pc (42_ldi_prn.md R152). -/
theorem print_footprint {a : Byte} (h : s.print a = .ok t) : Footprint (.prn a) s t := by
  obtain ⟨ra, npc, -, -, rfl⟩ := State.print_ok_iff.mp h
  exact { out := fun h => absurd rfl (h a) }

/-- POP writes its operand register and SP, and moves the latches (43_stack_call.md R164). -/
theorem popReg_footprint {a : Byte} (h : s.popReg a = .ok t) : Footprint (.pop a) s t := by
  obtain ⟨ra, v, sp, npc, hra, -, -, -, rfl⟩ := State.popReg_ok_iff.mp h
  exact {
    reg := fun j hj => by
      obtain ⟨hj, hsp⟩ := not_or.mp hj
      have hne : ra ≠ j := fun h => hj (by rw [← h, checkReg_ok_iff.mp hra])
      simp [hne, Ne.symm hsp]
    latches := fun h => absurd trivial h }

/-- RET writes SP and the pc, and moves the latches (43_stack_call.md R166). -/
theorem returnFromCall_footprint (h : s.returnFromCall = .ok t) : Footprint .ret s t := by
  obtain ⟨v, sp, -, -, rfl⟩ := State.returnFromCall_ok_iff.mp h
  exact {
    reg := fun j hj => by simp [show spIndex ≠ j from Ne.symm hj]
    latches := fun h => absurd trivial h }

/-- HLT writes the engine alone (44_branch_halt.md R186). -/
theorem halt_footprint : Footprint .hlt s s.halt where
  control h := absurd rfl h

/-- What an instruction commits is within its footprint. -/
theorem State.effect_footprint (h : s.effect i = .ok t) : Footprint i s t := by
  cases i with
  | hlt => cases h; exact halt_footprint
  | ret => exact returnFromCall_footprint h
  | pop a => exact popReg_footprint h
  | prn a => exact print_footprint h
  | cmp a b => exact cmp_footprint h
  | push a =>
    obtain ⟨ra, sp, npc, -, hsp, -, rfl⟩ := State.pushReg_ok_iff.mp h
    exact store_footprint _ _ hsp ⟨a, .inl rfl⟩
  | call a =>
    obtain ⟨ra, sp, back, -, hsp, -, rfl⟩ := State.callReg_ok_iff.mp h
    exact store_footprint _ _ hsp ⟨a, .inr rfl⟩
  | jmp a =>
    obtain ⟨ra, -, rfl⟩ := State.jump_ok_iff.mp h
    exact setPc_footprint _
  | jeq a | jne a =>
    obtain ⟨ra, fl, -, -, ⟨-, rfl⟩ | ⟨-, npc, -, rfl⟩⟩ := State.branch_ok_iff.mp h
    · exact setPc_footprint _
    · exact setPc_footprint _
  | not a =>
    obtain ⟨ra, r, npc, hra, hr, -, rfl⟩ := State.aluOne_ok_iff.mp h
    obtain ⟨hcmp, -⟩ | ⟨-, v, rfl⟩ := alu_ok_cases hr
    · cases hcmp
    · exact setReg_footprint v npc (checkReg_ok_iff.mp hra).symm
  | ldi a imm =>
    obtain ⟨ra, npc, hra, -, rfl⟩ := State.loadImmediate_ok_iff.mp h
    exact setReg_footprint imm npc (checkReg_ok_iff.mp hra).symm
  | add a b | mul a b | mod a b | and a b | or a b | xor a b | shl a b | shr a b =>
    exact aluTwo_footprint (by decide) (fun _ hj => hj) h

/-- Every instruction stays within its footprint, whether it completes or faults (10_state.md R23, 60_exceptions.md
R206). -/
theorem exec_footprint (h : exec i s = .next t) : Footprint i s t := by
  rcases exec_next_cases h with hok | ⟨c, -, rfl⟩
  · exact State.effect_footprint hok
  · exact raise_footprint c

/-- Equal memories hold the same cells. -/
theorem State.cell_congr (h : t.mem = s.mem) (addr : Nat) : t.cell addr = s.cell addr :=
  congrArg (Memory.read · addr) h

end

end Sys2Proof.Machine

namespace Sys2Proof

open Machine

/-- Settles O50: four clauses of the footprint. -/
theorem soleWriters : Obligations.SoleWriters := fun _ _ _ h =>
  have F := exec_footprint h
  ⟨F.fl, F.out, F.mem, F.cfg⟩

/-- Settles O35: each of the ten writes its operand register alone. -/
theorem registerWriterFrame : Obligations.RegisterWriterFrame := by
  intro i a b s t hi h
  have F := exec_footprint h
  obtain ⟨hw, hstack, hcmp, hprn, hstore, hhlt⟩ : (∀ j, WritesReg i j ↔ j.val = a.toNat) ∧ ¬ UsesStack i ∧
      (∀ a b, i ≠ .cmp a b) ∧ (∀ a, i ≠ .prn a) ∧ (∀ a, i ≠ .push a ∧ i ≠ .call a) ∧ i ≠ .hlt := by
    simp only [List.mem_cons, List.not_mem_nil, or_false] at hi
    rcases hi with rfl | rfl | rfl | rfl | rfl | rfl | rfl | rfl | rfl | rfl <;> simp [WritesReg, UsesStack]
  obtain ⟨hmar, hmdr⟩ := F.latches hstack
  exact ⟨fun j hj => F.reg j (mt (hw j).mp hj), F.fl hcmp, State.cell_congr (F.mem hstore), F.out hprn, hmar, hmdr,
    F.control hhlt⟩

/-- Settles O36: none of the five writes a register or memory. -/
theorem noRegisterWrittenFrame : Obligations.NoRegisterWrittenFrame := by
  intro i a b s t hi h
  have F := exec_footprint h
  obtain ⟨hw, hstack, hcmp, hprn, hstore, hhlt⟩ : (∀ j, ¬ WritesReg i j) ∧ ¬ UsesStack i ∧
      (i ≠ .cmp a b → ∀ a b, i ≠ .cmp a b) ∧ (i ≠ .prn a → ∀ a, i ≠ .prn a) ∧ (∀ a, i ≠ .push a ∧ i ≠ .call a) ∧
      i ≠ .hlt := by
    simp only [List.mem_cons, List.not_mem_nil, or_false] at hi
    rcases hi with rfl | rfl | rfl | rfl | rfl <;> simp [WritesReg, UsesStack]
  obtain ⟨hmar, hmdr⟩ := F.latches hstack
  exact ⟨fun j => F.reg j (hw j), State.cell_congr (F.mem hstore), fun hne => F.fl (hcmp hne),
    fun hne => F.out (hprn hne), hmar, hmdr, F.control hhlt⟩

/-- Settles O37: both write SP and the cell it then names; where SP cannot be decremented they fault. -/
theorem pushCallFrame : Obligations.PushCallFrame := by
  intro i a s t hi h
  have F := exec_footprint h
  obtain ⟨hw, hcmp, hprn, hhlt⟩ : (∀ j, WritesReg i j ↔ j = spIndex) ∧ (∀ a b, i ≠ .cmp a b) ∧ (∀ a, i ≠ .prn a) ∧
      i ≠ .hlt := by
    simp only [List.mem_cons, List.not_mem_nil, or_false] at hi
    rcases hi with rfl | rfl <;> simp [WritesReg]
  refine ⟨fun j hj => F.reg j (mt (hw j).mp hj), F.fl hcmp, F.out hprn, fun p hp addr hne => F.cell addr fun q hq => ?_,
    fun c hc addr => F.cell addr fun q hq => ?_, F.control hhlt⟩
  · rwa [← Except.ok.inj (hp.symm.trans hq)]
  · cases hc.symm.trans hq

/-- Settles O38: POP writes its operand and SP, RET writes SP. -/
theorem popRetFrame : Obligations.PopRetFrame := by
  intro i a s t hi h
  have F := exec_footprint h
  obtain ⟨hw, hcmp, hprn, hstore, hhlt⟩ : (∀ j, j ≠ spIndex → (i = .ret ∨ j.val ≠ a.toNat) → ¬ WritesReg i j) ∧
      (∀ a b, i ≠ .cmp a b) ∧ (∀ a, i ≠ .prn a) ∧ (∀ a, i ≠ .push a ∧ i ≠ .call a) ∧ i ≠ .hlt := by
    simp only [List.mem_cons, List.not_mem_nil, or_false] at hi
    rcases hi with rfl | rfl <;> simp +contextual [WritesReg]
  exact ⟨fun j hj hop => F.reg j (hw j hj hop), F.fl hcmp, F.out hprn, State.cell_congr (F.mem hstore), F.control hhlt⟩

end Sys2Proof
end

section
/-! When a step exists (10_state.md R30, 40_dispatch.md R99), and HLT as the only way into Halted (44_branch_halt.md
R186). -/

namespace Sys2Proof.Machine

/-! ### What a fetch with a decoded row answers -/

/-- The state in which the operand bytes are fetched: IR holds the opcode, and the latches its access (40_dispatch.md
R91). -/
def State.withOpcode (s : State) (op : Byte) : State := (s.setLatches s.pc op).setIr op

/-- Operand bytes that can be read complete the fetch (40_dispatch.md R93). -/
theorem State.fetchInstr_of_operands {s t : State} {op a b : Byte} {m : Mnemonic} (hcell : s.cell s.pc.toNat = some op)
    (hrow : decodeOpcode s.cfg op = some m) (h : (s.withOpcode op).fetchOperands m = .ok (a, b, t)) :
    s.fetchInstr = .ok (m.build a b, t) := by
  rw [State.withOpcode] at h
  simp only [State.fetchInstr, State.fetchOpcode_some hcell, State.setIr_cfg, State.setLatches_cfg, hrow, h]

/-- An operand byte that cannot be read is the fetch's fault, with the opcode in the record (40_dispatch.md R93,
10_state.md R34). -/
theorem State.fetchInstr_of_operands_error {s : State} {op : Byte} {m : Mnemonic} {c : Cause}
    (hcell : s.cell s.pc.toNat = some op) (hrow : decodeOpcode s.cfg op = some m)
    (h : (s.withOpcode op).fetchOperands m = .error c) : s.fetchInstr = .error ⟨c, some op⟩ := by
  rw [State.withOpcode] at h
  simp only [State.fetchInstr, State.fetchOpcode_some hcell, State.setIr_cfg, State.setLatches_cfg, hrow, h]

/-- The byte at the pc decodes to the row of the fetched instruction (40_dispatch.md R92). -/
theorem State.fetchInstr_row {s u : State} {i : Instr} (h : s.fetchInstr = .ok (i, u)) :
    ∃ op, s.cell s.pc.toNat = some op ∧ decodeOpcode s.cfg op = some i.mnemonic := by
  rcases s.fetchInstr_cases with ⟨-, hf⟩ | ⟨op, hcell, ⟨-, hf⟩ | ⟨m, hrow, ⟨c, hf, -⟩ | ⟨j, t, hf, rfl, -⟩⟩⟩
  case inr.inr.inr =>
    cases hf.symm.trans h
    exact ⟨op, hcell, hrow⟩
  all_goals cases hf.symm.trans h

/-- A fetched instruction runs in the state the fetch left (40_dispatch.md R90). -/
theorem step_of_fetchInstr_ok {s u : State} {i : Instr} (hrun : s.engine = .running) (h : s.fetchInstr = .ok (i, u)) :
    step s = settleOutcome (exec i u) := by
  rw [step_running hrun, h]

/-! ### When a step exists -/

/-- An instruction always answers a next state (60_exceptions.md R206). -/
theorem exec_total (i : Instr) (s : State) : ∃ t, exec i s = .next t := by
  cases h : s.effect i with
  | ok t => exact ⟨t, exec_of_ok h⟩
  | error c => exact ⟨_, exec_of_error h⟩

theorem step_halted {s : State} (h : s.engine = .halted) : step s = .fault .engineHalted := by
  simp only [step, h]

theorem step_faulted {s : State} (h : s.engine = .faulted) : step s = .fault .engineFaulted := by
  simp only [step, h]

/-- A Running engine always has a step: a fatal condition is a next state (10_state.md R30). -/
theorem step_total {s : State} (hrun : s.engine = .running) : ∃ t, step s = .next t := by
  cases hf : s.fetchInstr with
  | error e => exact ⟨_, step_of_fetchInstr_error hrun hf⟩
  | ok p =>
    obtain ⟨i, u⟩ := p
    obtain ⟨t, ht⟩ := exec_total i u
    exact ⟨t.settle, by rw [step_of_fetchInstr_ok hrun hf, ht]; rfl⟩

/-! ### HLT -/

@[simp] theorem exec_hlt (s : State) : exec .hlt s = .next s.halt := rfl

/-- Halting depends on no latch (10_state.md R32). -/
theorem State.halt_forgetLatches_congr {s t : State} (h : s.forgetLatches = t.forgetLatches) :
    s.halt.forgetLatches = t.halt.forgetLatches := congrArg State.halt h

/-- HLT is the only instruction that takes a Running engine to Halted (44_branch_halt.md R186). -/
theorem eq_hlt_of_exec_halted {i : Instr} {s t : State} (hrun : s.engine = .running) (h : exec i s = .next t)
    (ht : t.engine = .halted) : i = .hlt := by
  by_contra hne
  obtain ⟨-, -, -, ⟨hsame, -⟩ | ⟨c, rfl⟩⟩ := (exec_footprint h).control hne
  · cases ht.symm.trans (hsame.trans hrun)
  · cases ht

end Sys2Proof.Machine

namespace Sys2Proof

open Machine

/-- Settles O12: HLT has no check. -/
theorem hltCompletes : Obligations.HltCompletes := exec_hlt

/-- Settles O11: in Running the fetch fails or its instruction runs, and both answer a next state. -/
theorem stepEnabledExactlyWhileRunning : Obligations.StepEnabledExactlyWhileRunning :=
  fun _ => ⟨⟨step_total, fun ⟨_, h⟩ => running_of_step h⟩, step_halted, step_faulted⟩

/-- Settles O10: HLT has no operand to fetch and no check to fail, so the step halts. -/
theorem nothingRunsAfterHlt : Obligations.NothingRunsAfterHlt := by
  intro s t op hcell hrow h
  have hfetch : s.fetchInstr = .ok (.hlt, s.withOpcode op) := State.fetchInstr_of_operands hcell hrow rfl
  rw [step_of_fetchInstr_ok (running_of_step h) hfetch, exec_hlt] at h
  cases h
  exact ⟨rfl, rfl, step_halted rfl⟩

/-- Settles O49: a failed fetch enters Faulted, so an instruction ran, and only HLT halts; the fetch before it moved
only the latches. -/
theorem onlyHltHalts : Obligations.OnlyHltHalts := by
  intro s t hstep hhalted
  rcases step_cases hstep with ⟨e, -, rfl⟩ | ⟨i, u, v, hfetch, hexec, rfl⟩
  · cases hhalted
  · obtain ⟨-, hlatches⟩ := State.fetchInstr_ok hfetch
    obtain ⟨op, hcell, hrow⟩ := State.fetchInstr_row hfetch
    have hrun : u.engine = .running := (congrArg (·.engine) hlatches).trans (running_of_step hstep)
    obtain rfl := eq_hlt_of_exec_halted hrun hexec hhalted
    cases hexec
    exact ⟨op, hcell, hrow, (State.halt_forgetLatches_congr hlatches :)⟩

end Sys2Proof
end

section
/-! The machine's invariant (10_state.md R20, R28, R34, 60_exceptions.md R206): it holds at reset and after a load, and
every step keeps it. -/

namespace Sys2Proof.Machine

/-! ### What an instruction commits -/

/-- A commit keeps the canonical memory: PUSH and CALL write a cell 0..255 (20_memory.md R54). -/
theorem State.effect_mem_wf {s t : State} {i : Instr} (hs : s.mem.wf = true) (h : s.effect i = .ok t) :
    t.mem.wf = true := by
  cases i with
  | push a =>
    obtain ⟨ra, sp, npc, -, -, -, rfl⟩ := State.pushReg_ok_iff.mp h
    exact Memory.write_wf hs sp.isLt
  | call a =>
    obtain ⟨ra, sp, back, -, -, -, rfl⟩ := State.callReg_ok_iff.mp h
    exact Memory.write_wf hs sp.isLt
  | _ => rwa [(State.effect_footprint h).mem (by simp)]

/-- A commit keeps FL legal: CMP writes one of the three values (10_state.md R28, 41_alu.md R122). -/
theorem State.effect_fl_legal {s t : State} {i : Instr} (hs : flLegal s.fl) (h : s.effect i = .ok t) :
    flLegal t.fl := by
  cases i with
  | cmp a b =>
    obtain ⟨ra, rb, r, npc, -, -, hr, -, rfl⟩ := State.aluTwo_ok_iff.mp (show s.aluTwo .cmp a b = .ok t from h)
    obtain ⟨-, rfl⟩ | ⟨hne, -⟩ := alu_ok_cases hr
    · exact compareFlags_legal _ _
    · exact absurd rfl hne
  | _ => rwa [(State.effect_footprint h).fl (by simp)]

/-- A Running state that meets the invariant has no fault record (10_state.md R34). -/
theorem State.Inv.fault_none {s : State} (h : s.Inv) (hrun : s.engine = .running) : s.fault = none := by
  have hne : ¬ s.fault.isSome = true := fun hsome => by cases hrun.symm.trans (h.fault.mp hsome)
  simpa using hne

/-! ### The parts of a step -/

/-- A commit keeps the invariant. -/
theorem State.Inv.effect {s t : State} {i : Instr} (hs : s.Inv) (hrun : s.engine = .running) (h : s.effect i = .ok t) :
    t.Inv := by
  obtain ⟨hfault, hengine⟩ := State.effect_ok_control h
  have hnone : t.fault = none := hfault.trans (hs.fault_none hrun)
  refine ⟨State.effect_mem_wf hs.mem h, State.effect_fl_legal hs.fl h, ?_, ?_⟩
  · rcases hengine with he | he <;> simp [hnone, he, hrun]
  · simp [hnone]

/-- Taking a fault keeps the invariant: the record it writes names the pc it keeps (60_exceptions.md R206). -/
theorem State.Inv.raise {s : State} (hs : s.Inv) (c : Cause) (op : Option Byte) : (s.raise c op).Inv where
  mem := hs.mem
  fl := hs.fl
  fault := by simp
  recordPc := by rintro r ⟨⟩; rfl

/-- The invariant reads no latch (10_state.md R32). -/
theorem State.Inv.congr {s t : State} (hs : s.Inv) (h : s.forgetLatches = t.forgetLatches) : t.Inv := by
  obtain ⟨-, hpc, hfl, hmem, hengine, -, hfault, -⟩ := State.forgetLatches_eq_iff.mp h
  exact ⟨hmem ▸ hs.mem, hfl ▸ hs.fl, hfault ▸ hengine ▸ hs.fault, hfault ▸ hpc ▸ hs.recordPc⟩

/-- An instruction keeps the invariant of a Running state. -/
theorem State.Inv.exec {s t : State} {i : Instr} (hs : s.Inv) (hrun : s.engine = .running) (h : exec i s = .next t) :
    t.Inv := by
  rcases exec_next_cases h with hok | ⟨c, -, rfl⟩
  · exact hs.effect hrun hok
  · exact hs.raise c _

/-- Every step keeps the invariant: a fault is taken in the state before, and an instruction runs in a state in which
only the latches have moved. -/
theorem State.Inv.step {s t : State} (hs : s.Inv) (h : step s = .next t) : t.Inv := by
  rcases step_cases h with ⟨e, -, rfl⟩ | ⟨i, u, v, hfetch, hexec, rfl⟩
  · exact (hs.raise e.cause e.opcode).congr (State.settle_forgetLatches _).symm
  · obtain ⟨-, hlatches⟩ := State.fetchInstr_ok hfetch
    have hrun : u.engine = .running := (congrArg (·.engine) hlatches).trans (running_of_step h)
    exact ((hs.congr hlatches.symm).exec hrun hexec).congr (State.settle_forgetLatches _).symm

/-- No step changes the configuration (10_state.md R20). -/
theorem step_cfg {s t : State} (h : step s = .next t) : t.cfg = s.cfg := by
  rcases step_cases h with ⟨e, -, rfl⟩ | ⟨i, u, v, hfetch, hexec, rfl⟩
  · rfl
  · exact (exec_footprint hexec).cfg.trans (congrArg (·.cfg) (State.fetchInstr_ok hfetch).2)

/-! ### Where runs begin -/

/-- A reset state with an image in canonical form meets the invariant (70_reset_and_hazards.md R230, R232). -/
theorem State.Inv.resetWith (cfg : Config) {m : Memory} (h : m.wf = true) :
    { State.resetWith cfg with mem := m }.Inv where
  mem := h
  fl := trivial
  fault := ⟨nofun, nofun⟩
  recordPc := nofun

/-- A run that takes a step goes on from that step's next state (40_dispatch.md R98). -/
theorem run_succ_next {k : Nat} {s t : State} (h : Host.Core.run core (k + 1) s = .next t) :
    ∃ u, step s = .next u ∧ Host.Core.run core k u = .next t := by
  cases hu : core.step s with
  | next u => exact ⟨u, hu, by simpa only [Host.Core.run, hu] using h⟩
  | fault r => simp [Host.Core.run, hu] at h
  | refused r => simp [Host.Core.run, hu] at h

/-- What holds of a state and is kept by every step holds of every state reached from it (40_dispatch.md R100). -/
theorem Reaches.induction {P : State → Prop} (hstep : ∀ u v, P u → step u = .next v → P v) {s t : State}
    (h : Reaches s t) (hs : P s) : P t := by
  obtain ⟨k, hk⟩ := h
  induction k generalizing s with
  | zero => cases hk; exact hs
  | succ k ih =>
    obtain ⟨u, hu, hrest⟩ := run_succ_next hk
    exact ih (hstep s u hs hu) hrest

end Sys2Proof.Machine

namespace Sys2Proof

open Machine

/-- Settles O43: a step is a fault taken, or an instruction's commit, and both keep the invariant. -/
theorem stepKeepsInvariant : Obligations.StepKeepsInvariant := fun _ _ hs h => hs.step h

/-- Settles O44: the empty memory is in canonical form. -/
theorem resetMeetsInvariant : Obligations.ResetMeetsInvariant :=
  ⟨State.Inv.resetWith Config.defaults rfl, fun cfg => State.Inv.resetWith cfg rfl⟩

/-- Settles O45: a launch is a reset state with a canonical image; the invariant and the configuration are kept by every
step. -/
theorem launchedRunsKeepInvariant : Obligations.LaunchedRunsKeepInvariant := by
  intro cfg image s t hlaunch hreach
  refine hreach.induction (P := fun u => u.Inv ∧ u.cfg = cfg)
    (fun u v ⟨hinv, hcfg⟩ h => ⟨hinv.step h, (step_cfg h).trans hcfg⟩) ?_
  have hwf := launch_wf hlaunch
  obtain ⟨-, rfl⟩ := launch_next hlaunch
  exact ⟨State.Inv.resetWith cfg hwf, rfl⟩

end Sys2Proof
end

section
/-! IR, MAR and MDR are inputs of nothing (10_state.md R32, 93_implementation_defined.md U12): blanking them before a
step changes only what they hold after it. -/

namespace Sys2Proof.Machine

/-! ### Checks that read no latch -/

@[simp] theorem State.forgetLatches_seqPc (s : State) (len : Nat) : s.forgetLatches.seqPc len = s.seqPc len := rfl

@[simp] theorem State.forgetLatches_readFl (s : State) : s.forgetLatches.readFl = s.readFl := rfl

@[simp] theorem State.forgetLatches_regAfterDown (s : State) (sp : Byte) (a : Fin 8) :
    s.forgetLatches.regAfterDown sp a = s.regAfterDown sp a := rfl

/-- The checks of a memory read: the byte alone, without what the access leaves in the latches (20_memory.md R53). -/
def Memory.access (m : Memory) (addr : Nat) : Except Cause Byte :=
  if addr > 255 then .error (.outOfBounds .addr addr)
  else match m.read addr with
    | none => .error (.uninitializedRead addr)
    | some v => .ok v

/-- A memory read is its checks, then the latches (20_memory.md R53). -/
theorem State.memRead_eq_access (s : State) (addr : Nat) :
    s.memRead addr = (s.mem.access addr).map fun v => (v, s.setLatches (BitVec.ofNat 8 addr) v) := by
  unfold State.memRead Memory.access State.cell
  split_ifs
  · rfl
  · cases s.mem.read addr <;> rfl

/-! ### The checks and the commit -/

/-- What an instruction answers, but for the latches. -/
def blankLatches (r : Except Cause State) : Except Cause State := r.map State.forgetLatches

theorem State.blankLatches_aluTwo (s : State) (sel : AluSelect) (a b : Byte) :
    blankLatches (s.forgetLatches.aluTwo sel a b) = blankLatches (s.aluTwo sel a b) := by
  simp only [State.aluTwo, State.forgetLatches_cfg, State.forgetLatches_reg, State.forgetLatches_seqPc]
  cases checkRegs a b with
  | error c => rfl
  | ok p =>
    dsimp only
    cases alu s.cfg.aluOverflow sel a b (s.reg p.1) (s.reg p.2) with
    | error c => rfl
    | ok r => cases r <;> cases s.seqPc 3 <;> rfl

theorem State.blankLatches_aluOne (s : State) (sel : AluSelect) (a : Byte) :
    blankLatches (s.forgetLatches.aluOne sel a) = blankLatches (s.aluOne sel a) := by
  simp only [State.aluOne, State.forgetLatches_cfg, State.forgetLatches_reg, State.forgetLatches_seqPc]
  cases checkReg a with
  | error c => rfl
  | ok ra =>
    dsimp only
    cases alu s.cfg.aluOverflow sel a a (s.reg ra) (s.reg ra) with
    | error c => rfl
    | ok r => cases r <;> cases s.seqPc 2 <;> rfl

theorem State.blankLatches_branch (s : State) (wanted : Bool) (a : Byte) :
    blankLatches (s.forgetLatches.branch wanted a) = blankLatches (s.branch wanted a) := by
  simp only [State.branch, State.forgetLatches_readFl, State.forgetLatches_seqPc]
  cases checkReg a with
  | error c => rfl
  | ok ra =>
    cases s.readFl with
    | error c => rfl
    | ok fl =>
      by_cases htaken : flagE fl = wanted
      · simp only [if_pos htaken]
        rfl
      · simp only [if_neg htaken]
        cases s.seqPc 2 <;> rfl

theorem State.blankLatches_popReg (s : State) (a : Byte) :
    blankLatches (s.forgetLatches.popReg a) = blankLatches (s.popReg a) := by
  simp only [State.popReg, State.memRead_eq_access, State.forgetLatches_mem, State.forgetLatches_sp,
    State.forgetLatches_seqPc]
  cases checkReg a with
  | error c => rfl
  | ok ra =>
    cases s.mem.access s.sp.toNat with
    | error c => rfl
    | ok v =>
      simp only [Except.map]
      cases spUp (if ra = spIndex then v else s.sp) <;> cases s.seqPc 2 <;> rfl

/-- No instruction reads a latch: each check and each commit reads other fields (10_state.md R32). -/
theorem State.blankLatches_effect (s : State) (i : Instr) :
    blankLatches (s.forgetLatches.effect i) = blankLatches (s.effect i) := by
  cases i with
  | hlt => rfl
  | ret =>
    simp only [State.effect, State.returnFromCall, State.memRead_eq_access, State.forgetLatches_mem,
      State.forgetLatches_sp]
    cases s.mem.access s.sp.toNat <;> cases spUp s.sp <;> rfl
  | push a =>
    simp only [State.effect, State.pushReg, State.memWrite_byte, State.forgetLatches_sp, State.forgetLatches_seqPc,
      State.forgetLatches_regAfterDown]
    cases checkReg a <;> cases spDown s.sp <;> cases s.seqPc 2 <;> rfl
  | call a =>
    simp only [State.effect, State.callReg, State.memWrite_byte, State.forgetLatches_sp, State.forgetLatches_seqPc,
      State.forgetLatches_regAfterDown]
    cases checkReg a <;> cases spDown s.sp <;> cases s.seqPc 2 <;> rfl
  | pop a => exact s.blankLatches_popReg a
  | prn a =>
    simp only [State.effect, State.print, State.forgetLatches_seqPc]
    cases checkReg a <;> cases s.seqPc 2 <;> rfl
  | jmp a =>
    simp only [State.effect, State.jump]
    cases checkReg a <;> rfl
  | jeq a | jne a => exact s.blankLatches_branch _ a
  | not a => exact s.blankLatches_aluOne .not a
  | ldi a imm =>
    simp only [State.effect, State.loadImmediate, State.forgetLatches_seqPc]
    cases checkReg a <;> cases s.seqPc 3 <;> rfl
  | cmp a b => exact s.blankLatches_aluTwo .cmp a b
  | add a b | mul a b | mod a b | and a b | or a b | xor a b | shl a b | shr a b => exact s.blankLatches_aluTwo _ a b

/-! ### The fetch -/

/-- What fetching the operands answers, without the state in which the latches hold the last access. -/
def State.operandBytes (s : State) (m : Mnemonic) : Except Cause (Byte × Byte) :=
  (s.fetchOperands m).map fun p => (p.1, p.2.1)

/-- The instruction a fetch answers, without the state in which the latches hold the last access. -/
def State.fetchedInstr (s : State) : Except FetchFault Instr := s.fetchInstr.map Prod.fst

theorem State.forgetLatches_fetchTwo (s : State) :
    (s.forgetLatches.fetchTwo.map fun p => (p.1, p.2.1)) = s.fetchTwo.map fun p => (p.1, p.2.1) := by
  simp only [State.fetchTwo, State.opByte, State.memRead_eq_access, State.forgetLatches_mem, State.forgetLatches_pc]
  cases s.mem.access (s.pc.toNat + 1) with
  | error c => rfl
  | ok a =>
    simp only [Except.map, State.setLatches_mem, State.setLatches_pc, State.forgetLatches_mem, State.forgetLatches_pc]
    cases s.mem.access (s.pc.toNat + 2) <;> rfl

theorem State.forgetLatches_operandBytes (s : State) (m : Mnemonic) :
    s.forgetLatches.operandBytes m = s.operandBytes m := by
  unfold State.operandBytes State.fetchOperands
  cases m.format with
  | f0 => rfl
  | f1r =>
    simp only [State.opByte, State.memRead_eq_access, State.forgetLatches_mem, State.forgetLatches_pc]
    cases s.mem.access (s.pc.toNat + 1) <;> rfl
  | f2rr | f2ri => exact s.forgetLatches_fetchTwo

/-- The operand bytes of a decoded row are read from the pc and memory alone (40_dispatch.md R93). -/
theorem State.operandBytes_congr {s t : State} (h : s.forgetLatches = t.forgetLatches) (m : Mnemonic) :
    s.operandBytes m = t.operandBytes m := by
  rw [← s.forgetLatches_operandBytes, h, t.forgetLatches_operandBytes]

/-- A decoded row's instruction is built from its operand bytes (30_encoding.md R71). -/
theorem State.fetchedInstr_of_row {s : State} {op : Byte} {m : Mnemonic} (hcell : s.cell s.pc.toNat = some op)
    (hrow : decodeOpcode s.cfg op = some m) :
    s.fetchedInstr = ((s.operandBytes m).map fun p => m.build p.1 p.2).mapError fun c => ⟨c, some op⟩ := by
  have hlatches : s.forgetLatches = (s.withOpcode op).forgetLatches := rfl
  rw [State.operandBytes_congr hlatches, State.operandBytes, State.fetchedInstr]
  cases hops : (s.withOpcode op).fetchOperands m with
  | error c => rw [State.fetchInstr_of_operands_error hcell hrow hops]; rfl
  | ok p => rw [State.fetchInstr_of_operands hcell hrow hops]; rfl

/-- The fetch reads no latch (40_dispatch.md R91 to R93). -/
theorem State.fetchedInstr_congr {s t : State} (h : s.forgetLatches = t.forgetLatches) :
    s.fetchedInstr = t.fetchedInstr := by
  obtain ⟨-, hpc, -, hmem, -, -, -, hcfg⟩ := State.forgetLatches_eq_iff.mp h
  have hsame : s.cell s.pc.toNat = t.cell t.pc.toNat := by rw [State.cell, hpc, hmem, State.cell]
  cases hcell : t.cell t.pc.toNat with
  | none =>
    simp only [State.fetchedInstr, State.fetchInstr_of_fetchOpcode_error (State.fetchOpcode_none hcell),
      State.fetchInstr_of_fetchOpcode_error (State.fetchOpcode_none (hsame.trans hcell)), hpc]
  | some op =>
    cases hrow : decodeOpcode t.cfg op with
    | none =>
      simp only [State.fetchedInstr, State.fetchInstr_of_undecodable hcell hrow,
        State.fetchInstr_of_undecodable (hsame.trans hcell) (hcfg ▸ hrow)]
    | some m =>
      rw [State.fetchedInstr_of_row hcell hrow, State.fetchedInstr_of_row (hsame.trans hcell) (hcfg ▸ hrow),
        State.operandBytes_congr h]

/-! ### Outcomes -/

/-- Two states differ at most in IR, MAR, MDR and the count of free values. -/
def AgreeOffLatches (s t : State) : Prop := s.forgetLatches = t.forgetLatches

/-- States that differ only in the latches lead an instruction to outcomes that do (10_state.md R32). -/
theorem exec_agree_of_latches {s t : State} (h : s.forgetLatches = t.forgetLatches) (i : Instr) :
    OutcomesAgree AgreeOffLatches (exec i s) (exec i t) := by
  have heffect : blankLatches (s.effect i) = blankLatches (t.effect i) := by
    rw [← s.blankLatches_effect, h, t.blankLatches_effect]
  have hcfg : s.cfg = t.cfg := congrArg (·.cfg) h
  rw [exec_eq, exec_eq]
  cases hs : s.effect i with
  | ok u =>
    cases ht : t.effect i with
    | ok w =>
      rw [hs, ht] at heffect
      exact Except.ok.inj heffect
    | error c => rw [hs, ht] at heffect; cases heffect
  | error c =>
    cases ht : t.effect i with
    | ok w => rw [hs, ht] at heffect; cases heffect
    | error d =>
      rw [hs, ht] at heffect
      obtain rfl : c = d := Except.error.inj heffect
      rw [State.conclude_error, State.conclude_error, hcfg]
      exact State.raise_forgetLatches_congr h c _

/-- What the latches hold after a step is forgotten with them. -/
theorem settleOutcome_agree_latches {x y : Host.Outcome State Fault Refusal} (h : OutcomesAgree AgreeOffLatches x y) :
    OutcomesAgree AgreeOffLatches (settleOutcome x) (settleOutcome y) := by
  cases x <;> cases y <;> exact h

end Sys2Proof.Machine

namespace Sys2Proof

open Machine

/-- Settles O46: outside Running no step exists; in Running both states fetch the same instruction, or take the same
fault, and neither the instruction nor the fault reads a latch. -/
theorem latchesAreUnobservable : Obligations.LatchesAreUnobservable := by
  intro s t h
  have hengine : s.engine = t.engine := congrArg (·.engine) h
  have hfetched := State.fetchedInstr_congr h
  cases hrun : t.engine with
  | halted => rw [step_halted hrun, step_halted (hengine.trans hrun)]; rfl
  | faulted => rw [step_faulted hrun, step_faulted (hengine.trans hrun)]; rfl
  | running =>
    unfold State.fetchedInstr at hfetched
    cases hs : s.fetchInstr with
    | error e =>
      cases ht : t.fetchInstr with
      | error d =>
        rw [hs, ht] at hfetched
        obtain rfl : e = d := Except.error.inj hfetched
        rw [step_of_fetchInstr_error hrun ht, step_of_fetchInstr_error (hengine.trans hrun) hs]
        exact State.raise_forgetLatches_congr h _ _
      | ok q => rw [hs, ht] at hfetched; cases hfetched
    | ok p =>
      cases ht : t.fetchInstr with
      | error d => rw [hs, ht] at hfetched; cases hfetched
      | ok q =>
        rw [hs, ht] at hfetched
        obtain ⟨i, u⟩ := p
        obtain ⟨j, w⟩ := q
        obtain rfl : i = j := Except.ok.inj hfetched
        rw [step_of_fetchInstr_ok hrun ht, step_of_fetchInstr_ok (hengine.trans hrun) hs]
        have hlatches : u.forgetLatches = w.forgetLatches :=
          (State.fetchInstr_ok hs).2.trans (h.trans (State.fetchInstr_ok ht).2.symm)
        exact settleOutcome_agree_latches (exec_agree_of_latches hlatches i)

end Sys2Proof
end

section
/-! Fetching the bytes of an instruction (40_dispatch.md R91 to R93): which byte stops the fetch, and what a fetch that
reads them all leaves in IR and the latches. -/

namespace Sys2Proof.Machine

/-- Whether an operand byte can be read depends on the pc and memory alone (40_dispatch.md R93). -/
theorem State.opByte_error_iff {s : State} {k : Nat} {c : Cause} :
    s.opByte k = .error c ↔ s.mem.access (s.pc.toNat + k) = .error c := by
  rw [State.opByte, State.memRead_eq_access]
  cases s.mem.access (s.pc.toNat + k) <;> simp [Except.map]

/-- An operand byte that lies in memory, in a cell with a value, is read (40_dispatch.md R93). -/
theorem State.opByte_ok {s : State} {k : Nat} {v : Byte} (h : s.pc.toNat + k ≤ 255 ∧ s.cell (s.pc.toNat + k) = some v) :
    s.opByte k = .ok (v, s.setLatches (BitVec.ofNat 8 (s.pc.toNat + k)) v) :=
  State.opByte_ok_iff.mpr ⟨h.1, h.2, rfl⟩

/-- The first operand byte that cannot be read stops the fetch (40_dispatch.md R93, 60_exceptions.md R211). -/
theorem State.fetchOperands_error {s : State} {m : Mnemonic} {k : Nat} {c : Cause} (hk : 1 ≤ k)
    (hcount : k ≤ m.format.operandCount)
    (hearlier : ∀ j, 1 ≤ j → j < k → s.pc.toNat + j ≤ 255 ∧ (s.cell (s.pc.toNat + j)).isSome = true)
    (h : s.opByte k = .error c) : s.fetchOperands m = .error c := by
  have htwo : k ≤ 2 → s.fetchTwo = .error c := by
    intro hle
    obtain rfl | rfl : k = 1 ∨ k = 2 := by omega
    · simp only [State.fetchTwo, h]
    · obtain ⟨hrange, hsome⟩ := hearlier 1 (by decide) (by decide)
      obtain ⟨v, hv⟩ := Option.isSome_iff_exists.mp hsome
      have hsecond : (s.setLatches (BitVec.ofNat 8 (s.pc.toNat + 1)) v).opByte 2 = .error c :=
        State.opByte_error_iff.mpr (State.opByte_error_iff.mp h)
      simp only [State.fetchTwo, State.opByte_ok ⟨hrange, hv⟩, hsecond]
  unfold State.fetchOperands
  cases hm : m.format <;> rw [hm] at hcount
  case f0 => exact absurd (hk.trans hcount) (by decide)
  case f1r =>
    obtain rfl : k = 1 := Nat.le_antisymm hcount hk
    simp only [h]
  case f2rr => exact htwo hcount
  case f2ri => exact htwo hcount

/-- After the opcode fetch IR and MDR hold the opcode, and MAR its address (40_dispatch.md R91). -/
theorem State.withOpcode_eq (s : State) (op : Byte) :
    s.withOpcode op = { s with ir := op, mar := BitVec.ofNat 8 s.pc.toNat, mdr := op } := by
  rw [BitVec.ofNat_toNat, BitVec.setWidth_eq]
  rfl

/-- The one operand byte of a two-byte instruction (30_encoding.md R71, 40_dispatch.md R93). -/
theorem State.fetchOperands_one {s : State} {m : Mnemonic} {a : Byte} (hm : m.format = .f1r)
    (ha : s.pc.toNat + 1 ≤ 255 ∧ s.cell (s.pc.toNat + 1) = some a) :
    s.fetchOperands m = .ok (a, 0, s.setLatches (BitVec.ofNat 8 (s.pc.toNat + 1)) a) := by
  simp only [State.fetchOperands, hm, State.opByte_ok ha]

/-- The two operand bytes of a three-byte instruction (30_encoding.md R71, 40_dispatch.md R93). -/
theorem State.fetchOperands_two {s : State} {m : Mnemonic} {a b : Byte} (hm : m.format.operandCount = 2)
    (ha : s.pc.toNat + 1 ≤ 255 ∧ s.cell (s.pc.toNat + 1) = some a)
    (hb : s.pc.toNat + 2 ≤ 255 ∧ s.cell (s.pc.toNat + 2) = some b) :
    s.fetchOperands m = .ok (a, b, s.setLatches (BitVec.ofNat 8 (s.pc.toNat + 2)) b) := by
  have hsecond : (s.setLatches (BitVec.ofNat 8 (s.pc.toNat + 1)) a).opByte 2 =
      .ok (b, s.setLatches (BitVec.ofNat 8 (s.pc.toNat + 2)) b) := State.opByte_ok (s := s.setLatches _ a) hb
  unfold State.fetchOperands
  cases hf : m.format <;> rw [hf] at hm
  case f0 | f1r => cases hm
  all_goals simp only [State.fetchTwo, State.opByte_ok ha, hsecond]

end Sys2Proof.Machine

namespace Sys2Proof

open Machine

/-- Settles O9: the earlier operand bytes are read, and the k-th fails its range check or its value check. -/
theorem operandFetchFaults : Obligations.OperandFetchFaults := by
  intro s op m k hrun hcell hrow hk hcount hearlier
  have hstep {c : Cause} (h : (s.withOpcode op).opByte k = .error c) : step s = .next (s.raise c (some op)).settle :=
    step_of_fetchInstr_error hrun
      (State.fetchInstr_of_operands_error hcell hrow (State.fetchOperands_error hk hcount hearlier h))
  exact ⟨fun hout => hstep (State.memRead_outOfBounds hout),
    fun hrange hnone => hstep (State.memRead_uninitialized hrange hnone)⟩

/-- Settles O6: bytes that decode are the opcode of a row and its operand bytes, which the fetch reads. -/
theorem stepRunsDecodedInstruction : Obligations.StepRunsDecodedInstruction := by
  intro s bytes i hrun hdecode hmem
  obtain ⟨op, hrow, rfl⟩ := decode_ok_iff.mp hdecode
  obtain ⟨-, hcell⟩ := hmem 0 (Nat.succ_pos _)
  have hstep {a b u} (hops : (s.withOpcode op).fetchOperands i.mnemonic = .ok (a, b, u))
      (hi : i.mnemonic.build a b = i) : step s = settleOutcome (exec i u) :=
    step_of_fetchInstr_ok hrun (hi ▸ State.fetchInstr_of_operands hcell hrow hops)
  cases i with
  | hlt | ret => exact hstep (congrArg (fun u => Except.ok (0, 0, u)) (s.withOpcode_eq op)) rfl
  | push a | pop a | prn a | call a | jmp a | jeq a | jne a | not a =>
    exact hstep (State.fetchOperands_one rfl (hmem 1 (Nat.lt_add_one 1))) rfl
  | ldi a b | add a b | mul a b | mod a b | cmp a b | and a b | or a b | xor a b | shl a b | shr a b =>
    exact hstep (State.fetchOperands_two rfl (hmem 1 (show 1 < 3 by decide)) (hmem 2 (Nat.lt_add_one 2))) rfl

end Sys2Proof
end

section
/-! The host's load (70_reset_and_hazards.md R232, R233). -/

namespace Sys2Proof.Machine

/-- A state that a step has produced is not a reset state: the latches have been freed since (log entry 14). -/
theorem ne_resetWith_of_step {s t : State} (h : step s = .next t) (cfg : Config) : t ≠ State.resetWith cfg := by
  obtain ⟨u, rfl⟩ : ∃ u : State, t = u.settle := by
    rcases step_cases h with ⟨e, -, rfl⟩ | ⟨i, u, v, -, -, rfl⟩
    · exact ⟨_, rfl⟩
    · exact ⟨_, rfl⟩
  intro heq
  cases congrArg (·.draws) heq

end Sys2Proof.Machine

namespace Sys2Proof

open Machine

/-- Settles O57: the image is written into the empty memory, so a cell outside it reads as none. -/
theorem launchWritesImage : Obligations.LaunchWritesImage := by
  intro cfg image hlen
  have hcell (k : Nat) : { State.resetWith cfg with mem := Memory.writeBytes [] 0 image }.cell k = image[k]? := by
    rw [State.cell, Memory.read_writeBytes]
    split_ifs with h
    · rfl
    · exact (List.getElem?_eq_none (by omega)).symm
  refine ⟨_, launch_eq hlen, rfl, fun k h => ?_, fun k h => ?_⟩
  · rw [hcell, List.getElem?_eq_getElem h]
  · rw [hcell, List.getElem?_eq_none h]

/-- Settles O58: a longer image fails the length check, and a stepped state the check that it is as reset left it. -/
theorem loadIsRefused : Obligations.LoadIsRefused := by
  refine ⟨fun cfg image hlong => ?_, fun s t image hstep => ?_⟩
  · exact (if_neg (not_not_intro rfl)).trans (if_pos hlong)
  · exact if_pos (ne_resetWith_of_step hstep t.cfg)

end Sys2Proof
end

section
/-! What the ALU answers, operation by operation, as the 8-bit operators (41_alu.md R111, R112, R130). -/

namespace Sys2Proof.Machine

/-- A result that is a natural number is kept modulo 256, where the mode allows it (41_alu.md R111). -/
theorem fitResult_nat {mode : AluOverflow} {n : Nat} (h : mode = .wrap ∨ n ≤ 255) :
    fitResult mode (n : Int) = .ok (.result (BitVec.ofNat 8 n)) := by
  rw [fitResult_ok (h.imp id fun hn => ⟨Int.natCast_nonneg n, Int.ofNat_le.mpr hn⟩), BitVec.ofInt_natCast]

section
variable {mode : AluOverflow} {a b A B : Byte}

theorem alu_add (h : mode = .wrap ∨ A.toNat + B.toNat ≤ 255) : alu mode .add a b A B = .ok (.result (A + B)) := by
  rw [alu, fitResult_nat h, BitVec.ofNat_add, BitVec.ofNat_toNat, BitVec.ofNat_toNat, BitVec.setWidth_eq,
    BitVec.setWidth_eq]

theorem alu_mul (h : mode = .wrap ∨ A.toNat * B.toNat ≤ 255) : alu mode .mul a b A B = .ok (.result (A * B)) := by
  have hbyte : BitVec.ofNat 8 (A.toNat * B.toNat) = A * B := BitVec.eq_of_toNat_eq (by simp)
  rw [alu, fitResult_nat h, hbyte]

theorem alu_and : alu mode .and a b A B = .ok (.result (A &&& B)) := by
  rw [alu, fitResult_byte (Nat.le_of_lt_succ (BitVec.isLt _)), BitVec.ofNat_toNat, BitVec.setWidth_eq]

theorem alu_or : alu mode .or a b A B = .ok (.result (A ||| B)) := by
  rw [alu, fitResult_byte (Nat.le_of_lt_succ (BitVec.isLt _)), BitVec.ofNat_toNat, BitVec.setWidth_eq]

theorem alu_xor : alu mode .xor a b A B = .ok (.result (A ^^^ B)) := by
  rw [alu, fitResult_byte (Nat.le_of_lt_succ (BitVec.isLt _)), BitVec.ofNat_toNat, BitVec.setWidth_eq]

/-- `-A - 1` is the complement of A modulo 256 (41_alu.md R126). -/
theorem alu_not_wrap : alu .wrap .not a b A B = .ok (.result (~~~A)) := by
  have hbyte : BitVec.ofInt 8 (-(A.toNat : Int) - 1) = ~~~A := by
    apply BitVec.eq_of_toNat_eq
    have hA := A.isLt
    have hres := toNat_ofInt_byte (-(A.toNat : Int) - 1)
    rw [BitVec.toNat_not]
    omega
  rw [alu, fitResult_ok (.inl rfl), hbyte]

/-- The exact product with a power of two is the shift by the whole amount, modulo 256 (41_alu.md R127). -/
theorem alu_shl (h : mode = .wrap ∨ A.toNat * 2 ^ B.toNat ≤ 255) :
    alu mode .shl a b A B = .ok (.result (A <<< B.toNat)) := by
  have hbyte : BitVec.ofNat 8 (A.toNat * 2 ^ B.toNat) = A <<< B.toNat := by
    apply BitVec.eq_of_toNat_eq
    rw [BitVec.toNat_ofNat, BitVec.toNat_shiftLeft, Nat.shiftLeft_eq]
  rw [alu, fitResult_nat h, hbyte]

theorem alu_shr : alu mode .shr a b A B = .ok (.result (A >>> B.toNat)) := by
  have hfits : A.toNat / 2 ^ B.toNat ≤ 255 := (Nat.div_le_self _ _).trans (Nat.le_of_lt_succ A.isLt)
  have hbyte : BitVec.ofNat 8 (A.toNat / 2 ^ B.toNat) = A >>> B.toNat := by
    rw [← Nat.shiftRight_eq_div_pow, ← BitVec.toNat_ushiftRight, BitVec.ofNat_toNat, BitVec.setWidth_eq]
  rw [alu, fitResult_byte hfits, hbyte]

theorem alu_mod (h : B ≠ 0) : alu mode .mod a b A B = .ok (.result (A % B)) := by
  have hfits : A.toNat % B.toNat ≤ 255 := (Nat.mod_le _ _).trans (Nat.le_of_lt_succ A.isLt)
  have hbyte : BitVec.ofNat 8 (A.toNat % B.toNat) = A % B := by
    rw [← BitVec.toNat_umod, BitVec.ofNat_toNat, BitVec.setWidth_eq]
  rw [alu, if_neg h, fitResult_byte hfits, hbyte]

theorem alu_cmp : alu mode .cmp a b A B = .ok (.flags (compareFlags A B)) := rfl

end

/-! ### CMP's flags -/

/-- CMP sets one bit, by the unsigned order (41_alu.md R122). -/
theorem compareFlags_eq (A B : Byte) : compareFlags A B =
    if A.toNat < B.toNat then 0b100#8 else if B.toNat < A.toNat then 0b010#8 else 0b001#8 := by
  unfold compareFlags
  rcases Nat.lt_trichotomy A.toNat B.toNat with h | h | h
  · have hne : A ≠ B := by rintro rfl; omega
    simp [h, Nat.not_lt.mpr h.le, hne]
  · obtain rfl := BitVec.eq_of_toNat_eq h
    simp
  · have hne : A ≠ B := by rintro rfl; omega
    simp [h, Nat.not_lt.mpr h.le, hne]

@[simp] theorem flagG_compareFlags (A B : Byte) : flagG (compareFlags A B) = decide (B.toNat < A.toNat) := by
  rw [compareFlags_eq]
  split_ifs with hlt hgt
  · simp [flagG, Nat.not_lt.mpr hlt.le]
  · simp [flagG, hgt]
  · simp [flagG, hgt]

@[simp] theorem flagL_compareFlags (A B : Byte) : flagL (compareFlags A B) = decide (A.toNat < B.toNat) := by
  rw [compareFlags_eq]
  split_ifs with hlt hgt <;> simp [flagL, hlt]

/-- Bits 7:3 of CMP's value are zero (10_state.md R28). -/
theorem compareFlags_lt (A B : Byte) : (compareFlags A B).toNat < 8 := by
  rw [compareFlags_eq]
  split_ifs <;> decide

end Sys2Proof.Machine

namespace Sys2Proof

open Machine

/-- Settles O42: operation by operation. -/
theorem aluIsEightBitHardware : Obligations.AluIsEightBitHardware := fun a b A _ =>
  ⟨alu_add (.inl rfl), alu_mul (.inl rfl), alu_and, alu_or, alu_xor, alu_not_wrap, alu_shl (.inl rfl), alu_shr, alu_mod,
    fun h => h ▸ alu_mod_zero .wrap a b A,
    _, alu_cmp, flagE_compareFlags _ _, flagG_compareFlags _ _, flagL_compareFlags _ _, compareFlags_lt _ _⟩

end Sys2Proof
end

section
/-! The ALU instructions whose checks pass (41_alu.md R120 to R129), and those of which the ALU or the next pc is the
fault (60_exceptions.md R204, R210, R211). -/

namespace Sys2Proof.Machine

section
variable {s : State} {sel : AluSelect} {a b : Byte} (ha : a.toNat < 8) (hb : b.toNat < 8)

/-- A two-register ALU instruction writes the ALU's result to its first operand (41_alu.md R110). -/
theorem State.aluTwo_of_result {v : Byte}
    (hv : alu s.cfg.aluOverflow sel a b (s.reg ⟨a.toNat, ha⟩) (s.reg ⟨b.toNat, hb⟩) = .ok (.result v))
    (hpc : s.pc.toNat + 3 ≤ 255) :
    s.aluTwo sel a b = .ok { s with regs := s.regs.set a.toNat v ha, pc := s.pc + 3 } :=
  State.aluTwo_ok_iff.mpr ⟨_, _, _, _, checkReg_ok ha, checkReg_ok hb, hv, State.seqPc_ok hpc, rfl⟩

/-- The next pc is the last check of a two-register ALU instruction (60_exceptions.md R211). -/
theorem State.aluTwo_of_pc_error {r : AluOutput}
    (hr : alu s.cfg.aluOverflow sel a b (s.reg ⟨a.toNat, ha⟩) (s.reg ⟨b.toNat, hb⟩) = .ok r)
    (hpc : 255 < s.pc.toNat + 3) : s.aluTwo sel a b = .error (.outOfBounds .pc (s.pc.toNat + 3 : Nat)) := by
  simp only [State.aluTwo, checkRegs_ok ha hb, hr, State.seqPc_error hpc]

/-- NOT writes the ALU's result to its operand (41_alu.md R126). -/
theorem State.aluOne_of_result {v : Byte}
    (hv : alu s.cfg.aluOverflow sel a a (s.reg ⟨a.toNat, ha⟩) (s.reg ⟨a.toNat, ha⟩) = .ok (.result v))
    (hpc : s.pc.toNat + 2 ≤ 255) :
    s.aluOne sel a = .ok { s with regs := s.regs.set a.toNat v ha, pc := s.pc + 2 } :=
  State.aluOne_ok_iff.mpr ⟨_, _, _, checkReg_ok ha, hv, State.seqPc_ok hpc, rfl⟩

/-- What the ALU raises on NOT's operand is the instruction's fault, whatever the pc (60_exceptions.md R211). -/
theorem State.aluOne_of_alu_error {c : Cause}
    (h : alu s.cfg.aluOverflow sel a a (s.reg ⟨a.toNat, ha⟩) (s.reg ⟨a.toNat, ha⟩) = .error c) :
    s.aluOne sel a = .error c := by
  simp only [State.aluOne, checkReg_ok ha, h]

/-- The next pc is the last check of NOT (60_exceptions.md R211). -/
theorem State.aluOne_of_pc_error {r : AluOutput}
    (hr : alu s.cfg.aluOverflow sel a a (s.reg ⟨a.toNat, ha⟩) (s.reg ⟨a.toNat, ha⟩) = .ok r)
    (hpc : 255 < s.pc.toNat + 2) : s.aluOne sel a = .error (.outOfBounds .pc (s.pc.toNat + 2 : Nat)) := by
  simp only [State.aluOne, checkReg_ok ha, hr, State.seqPc_error hpc]

end

/-- Under `fault` a natural number above 255 does not fit (41_alu.md R111). -/
theorem fitResult_overflow {n : Nat} (h : 255 < n) : fitResult .fault (n : Int) = .error (.aluOverflow (n : Int)) :=
  fitResult_error_iff.mpr ⟨rfl, by omega, rfl⟩

/-- Under `fault` NOT's exact result, which is negative, never fits (41_alu.md R126). -/
theorem alu_not_overflow (a b A B : Byte) :
    alu .fault .not a b A B = .error (.aluOverflow (-(A.toNat : Int) - 1)) :=
  fitResult_error_iff.mpr ⟨rfl, by omega, rfl⟩

end Sys2Proof.Machine

namespace Sys2Proof

open Machine

/-- Settles O22: the ALU answers the 8-bit sum. -/
theorem addCompletes : Obligations.AddCompletes := fun a b _ ha hb hfits hpc =>
  exec_of_ok (i := .add a b) (State.aluTwo_of_result ha hb (alu_add hfits) hpc)

/-- Settles O23: the ALU answers the 8-bit product. -/
theorem mulCompletes : Obligations.MulCompletes := fun a b _ ha hb hfits hpc =>
  exec_of_ok (i := .mul a b) (State.aluTwo_of_result ha hb (alu_mul hfits) hpc)

/-- Settles O24: the ALU answers the remainder of a nonzero divisor. -/
theorem modCompletes : Obligations.ModCompletes := fun a b _ ha hb hdivisor hpc =>
  exec_of_ok (i := .mod a b) (State.aluTwo_of_result ha hb (alu_mod hdivisor) hpc)

/-- Settles O25: CMP commits the ALU's flags. -/
theorem cmpCompletes : Obligations.CmpCompletes := by
  intro a b s ha hb hpc
  rw [← compareFlags_eq]
  exact exec_of_ok (i := .cmp a b)
    (State.aluTwo_ok_iff.mpr ⟨_, _, _, _, checkReg_ok ha, checkReg_ok hb, alu_cmp, State.seqPc_ok hpc, rfl⟩)

/-- Settles O26: a bitwise result is a byte in either mode. -/
theorem bitwiseComplete : Obligations.BitwiseComplete := fun a b _ ha hb hpc =>
  ⟨exec_of_ok (i := .and a b) (State.aluTwo_of_result ha hb alu_and hpc),
    exec_of_ok (i := .or a b) (State.aluTwo_of_result ha hb alu_or hpc),
    exec_of_ok (i := .xor a b) (State.aluTwo_of_result ha hb alu_xor hpc)⟩

/-- Settles O27: the ALU shifts by the whole second byte. -/
theorem shiftsComplete : Obligations.ShiftsComplete := fun a b _ ha hb hpc =>
  ⟨fun hfits => exec_of_ok (i := .shl a b) (State.aluTwo_of_result ha hb (alu_shl hfits) hpc),
    exec_of_ok (i := .shr a b) (State.aluTwo_of_result ha hb alu_shr hpc)⟩

/-- Settles O20: under `wrap` the ALU answers the complement. -/
theorem notCompletes : Obligations.NotCompletes := by
  intro a s ha hwrap hpc
  exact exec_of_ok (i := .not a) (State.aluOne_of_result ha (by rw [hwrap, alu_not_wrap]) hpc)

/-- Settles O29: under `fault` an exact result outside 0..255 stops the instruction at the ALU, before the next pc is
checked. -/
theorem aluOverflowFaults : Obligations.AluOverflowFaults := by
  rintro a b _ _ s ha hb hmode rfl rfl
  refine ⟨fun hbig => ?add, fun hbig => ?mul, fun hbig => ?shl, ?not⟩
  case add =>
    exact exec_of_error (i := .add a b) (State.aluTwo_of_alu_error ha hb (by rw [hmode]; exact fitResult_overflow hbig))
  case mul =>
    exact exec_of_error (i := .mul a b) (State.aluTwo_of_alu_error ha hb (by rw [hmode]; exact fitResult_overflow hbig))
  case shl =>
    exact exec_of_error (i := .shl a b) (State.aluTwo_of_alu_error ha hb (by rw [hmode]; exact fitResult_overflow hbig))
  case not => exact exec_of_error (i := .not a) (State.aluOne_of_alu_error ha (by rw [hmode, alu_not_overflow]))

end Sys2Proof
end

section
/-! LDI, PRN and the branches (42_ldi_prn.md, 44_branch_halt.md): what they commit when their checks pass, and the check
that fails otherwise. -/

namespace Sys2Proof.Machine

section
variable {s : State} {a : Byte} (ha : a.toNat < 8)

/-- A branch on the wanted bit E is taken at every pc (44_branch_halt.md R182 to R185). -/
theorem State.branch_taken {fl : Byte} {wanted : Bool} (hfl : s.fl = some fl) (hE : flagE fl = wanted) :
    s.branch wanted a = .ok { s with pc := s.reg ⟨a.toNat, ha⟩ } :=
  State.branch_ok_iff.mpr ⟨_, fl, checkReg_ok ha, hfl, .inl ⟨hE, rfl⟩⟩

include ha

/-- A branch on the other value of bit E goes on at the next instruction (44_branch_halt.md R182 to R185). -/
theorem State.branch_not_taken {fl : Byte} {wanted : Bool} (hfl : s.fl = some fl) (hE : flagE fl ≠ wanted)
    (hpc : s.pc.toNat + 2 ≤ 255) : s.branch wanted a = .ok { s with pc := s.pc + 2 } :=
  State.branch_ok_iff.mpr ⟨_, fl, checkReg_ok ha, hfl, .inr ⟨hE, _, State.seqPc_ok hpc, rfl⟩⟩

/-- Only the path not taken needs a next pc (44_branch_halt.md R182, 60_exceptions.md R211). -/
theorem State.branch_of_pc_error {fl : Byte} {wanted : Bool} (hfl : s.fl = some fl) (hE : flagE fl ≠ wanted)
    (hpc : 255 < s.pc.toNat + 2) : s.branch wanted a = .error (.outOfBounds .pc (s.pc.toNat + 2 : Nat)) := by
  simp only [State.branch, checkReg_ok ha, State.readFl_ok_iff.mpr hfl, if_neg hE, State.seqPc_error hpc]

/-- FL is read before the next pc is checked (60_exceptions.md R209, R211). -/
theorem State.branch_unsetFlags {wanted : Bool} (hfl : s.fl = none) : s.branch wanted a = .error .unsetFlags := by
  simp only [State.branch, checkReg_ok ha, State.readFl, hfl]

end

end Sys2Proof.Machine

namespace Sys2Proof

open Machine

/-- Settles O21: the register check and the next pc are LDI's only checks. -/
theorem ldiCompletes : Obligations.LdiCompletes := fun a imm _ ha hpc =>
  exec_of_ok (i := .ldi a imm) (State.loadImmediate_ok_iff.mpr ⟨_, _, checkReg_ok ha, State.seqPc_ok hpc, rfl⟩)

/-- Settles O16: the register check and the next pc are PRN's only checks. -/
theorem prnCompletes : Obligations.PrnCompletes := fun a _ ha hpc =>
  exec_of_ok (i := .prn a) (State.print_ok_iff.mpr ⟨_, _, checkReg_ok ha, State.seqPc_ok hpc, rfl⟩)

/-- Settles O18: the register check is JMP's only check. -/
theorem jmpCompletes : Obligations.JmpCompletes := fun a _ ha =>
  exec_of_ok (i := .jmp a) (State.jump_ok_iff.mpr ⟨_, checkReg_ok ha, rfl⟩)

/-- Settles O19: bit E is the one wanted, or the other. -/
theorem conditionalBranchesComplete : Obligations.ConditionalBranchesComplete := by
  intro a fl s ha hfl
  refine ⟨fun hE => exec_of_ok (i := .jeq a) (State.branch_taken ha hfl hE),
    fun hE => exec_of_ok (i := .jne a) (State.branch_taken ha hfl hE),
    fun hE hpc => exec_of_ok (i := .jeq a) (State.branch_not_taken ha hfl ?_ hpc),
    fun hE hpc => exec_of_ok (i := .jne a) (State.branch_not_taken ha hfl ?_ hpc)⟩
  · rw [flagE, hE]; decide
  · rw [flagE, hE]; decide

/-- Settles O31: the register check passes, and FL is read next. -/
theorem unsetFlagsFaults : Obligations.UnsetFlagsFaults := fun a _ ha hfl =>
  ⟨exec_of_error (i := .jeq a) (State.branch_unsetFlags ha hfl),
    exec_of_error (i := .jne a) (State.branch_unsetFlags ha hfl)⟩

/-- Settles O33: the next pc is the last check of LDI and of every three-byte ALU instruction. -/
theorem threeByteNextPcFaults : Obligations.ThreeByteNextPcFaults := by
  intro a b s ha hb hpc
  refine ⟨fun imm => exec_of_error (i := .ldi a imm) ?_, fun i sel r hi hr => exec_of_error ?_⟩
  · simp only [State.effect, State.loadImmediate, checkReg_ok ha, State.seqPc_error hpc]
  · have heffect : s.effect i = s.aluTwo sel a b := by
      simp only [List.mem_cons, Prod.mk.injEq, List.not_mem_nil, or_false] at hi
      rcases hi with ⟨rfl, rfl⟩ | ⟨rfl, rfl⟩ | ⟨rfl, rfl⟩ | ⟨rfl, rfl⟩ | ⟨rfl, rfl⟩ | ⟨rfl, rfl⟩ | ⟨rfl, rfl⟩ |
        ⟨rfl, rfl⟩ | ⟨rfl, rfl⟩ <;> rfl
    rw [heffect, State.aluTwo_of_pc_error ha hb hr hpc]

end Sys2Proof
end

section
/-! The stack instructions (43_stack_call.md): what they commit when their checks pass, and the check that fails
otherwise, in the order of 60_exceptions.md R211. -/

namespace Sys2Proof.Machine

/-- x[a] after the decrement of SP, by the operand byte (43_stack_call.md R163, R165; 92_eei_decisions.md D18). -/
theorem State.regAfterDown_byte (s : State) (sp : Byte) {a : Byte} (ha : a.toNat < 8) :
    s.regAfterDown sp ⟨a.toNat, ha⟩ = if a = 7 then sp else s.reg ⟨a.toNat, ha⟩ := by
  simp only [State.regAfterDown, mk_eq_spIndex_iff]

section
variable {s : State} {a v : Byte}

/-- RET with a byte on top of the stack and an SP that can be incremented (43_stack_call.md R166). -/
theorem State.returnFromCall_ok (hv : s.cell s.sp.toNat = some v) (hsp : s.sp ≠ 255) :
    s.returnFromCall = .ok (((s.setLatches s.sp v).setPc v).setSp (s.sp + 1)) :=
  State.returnFromCall_ok_iff.mpr ⟨v, _, hv, spUp_ok hsp, rfl⟩

/-- SP is incremented after the top of the stack has been read (43_stack_call.md R166). -/
theorem State.returnFromCall_of_sp_error (hv : s.cell s.sp.toNat = some v) (hsp : s.sp = 255) :
    s.returnFromCall = .error (.outOfBounds .sp 256) := by
  have hup : spUp s.sp = .error (.outOfBounds .sp 256) := by rw [hsp, spUp_top]
  simp only [State.returnFromCall, State.memRead_byte_some hv, hup]

theorem State.returnFromCall_of_empty (hv : s.cell s.sp.toNat = none) :
    s.returnFromCall = .error (.uninitializedRead s.sp.toNat) := by
  simp only [State.returnFromCall, State.memRead_byte_none hv]

section
variable (ha : a.toNat < 8)

/-- PUSH with an SP that can be decremented and a next pc (43_stack_call.md R163). -/
theorem State.pushReg_ok (hsp : s.sp ≠ 0) (hpc : s.pc.toNat + 2 ≤ 255) :
    s.pushReg a = .ok { s with
      regs := s.regs.set 7 (s.sp - 1)
      mem := s.mem.write (s.sp - 1).toNat (if a = 7 then s.sp - 1 else s.reg ⟨a.toNat, ha⟩)
      pc := s.pc + 2
      mar := s.sp - 1
      mdr := if a = 7 then s.sp - 1 else s.reg ⟨a.toNat, ha⟩ } := by
  rw [← s.regAfterDown_byte (s.sp - 1) ha]
  exact State.pushReg_ok_iff.mpr ⟨_, _, _, checkReg_ok ha, spDown_ok hsp, State.seqPc_ok hpc, rfl⟩

/-- CALL with an SP that can be decremented and a return address (43_stack_call.md R165). -/
theorem State.callReg_ok (hsp : s.sp ≠ 0) (hpc : s.pc.toNat + 2 ≤ 255) :
    s.callReg a = .ok { s with
      regs := s.regs.set 7 (s.sp - 1)
      mem := s.mem.write (s.sp - 1).toNat (s.pc + 2)
      pc := if a = 7 then s.sp - 1 else s.reg ⟨a.toNat, ha⟩
      mar := s.sp - 1
      mdr := s.pc + 2 } := by
  rw [← s.regAfterDown_byte (s.sp - 1) ha]
  exact State.callReg_ok_iff.mpr ⟨_, _, _, checkReg_ok ha, spDown_ok hsp, State.seqPc_ok hpc, rfl⟩

/-- POP with a byte on top of the stack, an SP that can be incremented and a next pc (43_stack_call.md R164). -/
theorem State.popReg_ok (hv : s.cell s.sp.toNat = some v) (hsp : (if a = 7 then v else s.sp) ≠ 255)
    (hpc : s.pc.toNat + 2 ≤ 255) :
    s.popReg a = .ok { s with
      regs := (s.regs.set a.toNat v ha).set 7 ((if a = 7 then v else s.sp) + 1)
      pc := s.pc + 2
      mar := s.sp
      mdr := v } :=
  State.popReg_ok_iff.mpr ⟨_, v, _, _, checkReg_ok ha, hv,
    by simp only [mk_eq_spIndex_iff]; exact spUp_ok hsp, State.seqPc_ok hpc, rfl⟩

include ha

theorem State.pushReg_of_sp_error (hsp : s.sp = 0) : s.pushReg a = .error (.outOfBounds .sp (-1)) := by
  simp only [State.pushReg, checkReg_ok ha, hsp, spDown_zero]

theorem State.callReg_of_sp_error (hsp : s.sp = 0) : s.callReg a = .error (.outOfBounds .sp (-1)) := by
  simp only [State.callReg, checkReg_ok ha, hsp, spDown_zero]

theorem State.pushReg_of_pc_error (hsp : s.sp ≠ 0) (hpc : 255 < s.pc.toNat + 2) :
    s.pushReg a = .error (.outOfBounds .pc (s.pc.toNat + 2 : Nat)) := by
  simp only [State.pushReg, checkReg_ok ha, spDown_ok hsp, State.seqPc_error hpc]

/-- The return address is checked as a next pc is (43_stack_call.md R165). -/
theorem State.callReg_of_pc_error (hsp : s.sp ≠ 0) (hpc : 255 < s.pc.toNat + 2) :
    s.callReg a = .error (.outOfBounds .pc (s.pc.toNat + 2 : Nat)) := by
  simp only [State.callReg, checkReg_ok ha, spDown_ok hsp, State.seqPc_error hpc]

theorem State.popReg_of_empty (hv : s.cell s.sp.toNat = none) :
    s.popReg a = .error (.uninitializedRead s.sp.toNat) := by
  simp only [State.popReg, checkReg_ok ha, State.memRead_byte_none hv]

/-- SP is incremented after the top of the stack has been read, from that byte for POP R7 (43_stack_call.md R164). -/
theorem State.popReg_of_sp_error (hv : s.cell s.sp.toNat = some v) (hsp : (if a = 7 then v else s.sp) = 255) :
    s.popReg a = .error (.outOfBounds .sp 256) := by
  simp only [State.popReg, checkReg_ok ha, State.memRead_byte_some hv, mk_eq_spIndex_iff, hsp, spUp_top]

theorem State.popReg_of_pc_error (hv : s.cell s.sp.toNat = some v) (hsp : (if a = 7 then v else s.sp) ≠ 255)
    (hpc : 255 < s.pc.toNat + 2) : s.popReg a = .error (.outOfBounds .pc (s.pc.toNat + 2 : Nat)) := by
  simp only [State.popReg, checkReg_ok ha, State.memRead_byte_some hv, mk_eq_spIndex_iff, spUp_ok hsp,
    State.seqPc_error hpc]

end

end

end Sys2Proof.Machine

namespace Sys2Proof

open Machine

/-- Settles O13: the top cell and the increment of SP are RET's only checks. -/
theorem retCompletes : Obligations.RetCompletes := fun _ _ hv hsp =>
  exec_of_ok (i := .ret) (State.returnFromCall_ok hv hsp)

/-- Settles O14: the register, SP and the next pc are PUSH's checks. -/
theorem pushCompletes : Obligations.PushCompletes := fun a _ ha hsp hpc =>
  exec_of_ok (i := .push a) (State.pushReg_ok ha hsp hpc)

/-- Settles O15: the register, the top cell, SP and the next pc are POP's checks. -/
theorem popCompletes : Obligations.PopCompletes := fun a _ _ ha hv hsp hpc =>
  exec_of_ok (i := .pop a) (State.popReg_ok ha hv hsp hpc)

/-- Settles O17: the register, SP and the return address are CALL's checks. -/
theorem callCompletes : Obligations.CallCompletes := fun a _ ha hsp hpc =>
  exec_of_ok (i := .call a) (State.callReg_ok ha hsp hpc)

/-- Settles O32: the stack checks come right after the register check. -/
theorem stackFaults : Obligations.StackFaults := fun a _ ha =>
  ⟨fun hsp => ⟨exec_of_error (i := .push a) (State.pushReg_of_sp_error ha hsp),
      exec_of_error (i := .call a) (State.callReg_of_sp_error ha hsp)⟩,
    fun hv => ⟨exec_of_error (i := .pop a) (State.popReg_of_empty ha hv),
      exec_of_error (i := .ret) (State.returnFromCall_of_empty hv)⟩,
    fun _ hv => ⟨fun hsp => exec_of_error (i := .pop a) (State.popReg_of_sp_error ha hv hsp),
      fun hsp => exec_of_error (i := .ret) (State.returnFromCall_of_sp_error hv hsp)⟩⟩

/-- Settles O34: the next pc is the last check of every two-byte instruction that goes on in sequence, and CALL's return
address is checked like it. -/
theorem twoByteNextPcFaults : Obligations.TwoByteNextPcFaults := by
  intro a s ha hpc
  refine ⟨exec_of_error (i := .prn a) ?prn, fun hwrap => exec_of_error (i := .not a) ?not,
    fun hsp => ⟨exec_of_error (i := .push a) (State.pushReg_of_pc_error ha hsp hpc),
      exec_of_error (i := .call a) (State.callReg_of_pc_error ha hsp hpc)⟩,
    fun v hv hsp => exec_of_error (i := .pop a) (State.popReg_of_pc_error ha hv hsp hpc),
    fun fl hfl => ⟨fun hE => exec_of_error (i := .jeq a) (State.branch_of_pc_error ha hfl ?jeq hpc),
      fun hE => exec_of_error (i := .jne a) (State.branch_of_pc_error ha hfl ?jne hpc)⟩⟩
  case prn => simp only [State.effect, State.print, checkReg_ok ha, State.seqPc_error hpc]
  case not => exact State.aluOne_of_pc_error ha (by rw [hwrap, alu_not_wrap]) hpc
  case jeq => rw [flagE, hE]; decide
  case jne => rw [flagE, hE]; decide

end Sys2Proof
end

section
/-! Two instructions in a row: CALL and RET, CMP and a branch, a store and a fetch (43_stack_call.md R165, R166,
44_branch_halt.md R182, R184, 20_memory.md R63). -/

namespace Sys2Proof.Machine

/-- A CALL that completes jumps to its register and leaves the return address, which is no wrapped sum, on top of the
stack, one cell down (43_stack_call.md R165). -/
theorem State.callReg_top {s t : State} {a : Byte} (ha : a.toNat < 8) (h : s.callReg a = .ok t) :
    s.sp ≠ 0 ∧ s.pc.toNat + 2 ≤ 255 ∧ t.sp = s.sp - 1 ∧ t.cell t.sp.toNat = some (s.pc + 2) ∧
      t.pc = s.regAfterDown (s.sp - 1) ⟨a.toNat, ha⟩ := by
  obtain ⟨ra, sp, back, hra, hsp, hback, rfl⟩ := State.callReg_ok_iff.mp h
  obtain rfl := eq_of_checkReg_ok ha hra
  obtain ⟨hne, rfl⟩ := spDown_ok_iff.mp hsp
  obtain ⟨hpc, rfl⟩ := State.seqPc_ok_iff.mp hback
  exact ⟨hne, hpc, by simp⟩

/-- A CMP that completes leaves the comparison in FL (41_alu.md R122). -/
theorem State.cmp_fl {s t : State} {a b : Byte} (ha : a.toNat < 8) (hb : b.toNat < 8) (h : s.aluTwo .cmp a b = .ok t) :
    t.fl = some (compareFlags (s.reg ⟨a.toNat, ha⟩) (s.reg ⟨b.toNat, hb⟩)) := by
  obtain ⟨ra, rb, r, npc, hra, hrb, hr, -, rfl⟩ := State.aluTwo_ok_iff.mp h
  obtain rfl := eq_of_checkReg_ok ha hra
  obtain rfl := eq_of_checkReg_ok hb hrb
  cases hr
  rfl

/-- The byte in the cell at SP is what a fetch of that address reads, from any state with the same memory (20_memory.md
R63). -/
theorem State.fetch_of_top {t u : State} {v : Byte} (hmem : u.mem = t.mem) (htop : t.cell t.sp.toNat = some v) :
    (u.pc = t.sp → ∃ w, u.fetchOpcode = .ok (v, w)) ∧
      ∀ k, u.pc.toNat + k = t.sp.toNat → ∃ w, u.opByte k = .ok (v, w) := by
  have hcell : u.cell t.sp.toNat = some v := (State.cell_congr hmem _).trans htop
  refine ⟨fun hpc => ⟨_, State.fetchOpcode_some (hpc ▸ hcell)⟩, fun k hk => ⟨_, State.opByte_ok ⟨?_, hk ▸ hcell⟩⟩⟩
  rw [hk]
  exact Nat.le_of_lt_succ t.sp.isLt

end Sys2Proof.Machine

namespace Sys2Proof

open Machine

/-- Settles O53: CALL left its return address on top of the stack, one cell down, so RET reads it there and SP can be
incremented again. -/
theorem callRetPairing : Obligations.CallRetPairing := by
  intro a s t u ha _ hcall ht husp hucell
  obtain ⟨hne, hpc, hsp, htop, htarget⟩ := State.callReg_top ha (effect_ok_of_running hcall ht)
  have hback : u.cell u.sp.toNat = some (s.pc + 2) := by rw [husp, hucell, htop]
  have husp' : u.sp = s.sp - 1 := husp.trans hsp
  have hup : u.sp ≠ 255 := by rw [husp']; bv_omega
  refine ⟨htarget.trans (s.regAfterDown_byte _ ha), htop, by bv_omega, _,
    exec_of_ok (State.returnFromCall_ok hback hup), rfl, ?_, rfl⟩
  rw [State.setSp_sp, husp', BitVec.sub_add_cancel]

/-- Settles O55: bit E of the FL that CMP leaves is the equality of the two registers. -/
theorem cmpDecidesBranches : Obligations.CmpDecidesBranches := by
  intro a b d s t ha hb hd _ hcmp ht
  have hfl := State.cmp_fl ha hb (effect_ok_of_running hcmp ht)
  have hE := flagE_compareFlags (s.reg ⟨a.toNat, ha⟩) (s.reg ⟨b.toNat, hb⟩)
  refine ⟨fun heq => ?equal, fun hne => ?unequal⟩
  case equal =>
    rw [decide_eq_true heq] at hE
    exact ⟨exec_of_ok (i := .jeq d) (State.branch_taken hd hfl hE),
      fun hpc => exec_of_ok (i := .jne d) (State.branch_not_taken hd hfl (by rw [hE]; decide) hpc)⟩
  case unequal =>
    rw [decide_eq_false hne] at hE
    exact ⟨exec_of_ok (i := .jne d) (State.branch_taken hd hfl hE),
      fun hpc => exec_of_ok (i := .jeq d) (State.branch_not_taken hd hfl (by rw [hE]; decide) hpc)⟩

/-- Settles O56: the stored byte is on top of the stack when PUSH or CALL completes, and a fetch reads the cell. -/
theorem storedByteIsFetched : Obligations.StoredByteIsFetched := by
  intro i a s t u ha hi _ hexec ht hmem
  have hok := effect_ok_of_running hexec ht
  simp only [List.mem_cons, List.not_mem_nil, or_false] at hi
  obtain rfl | rfl := hi
  · obtain ⟨-, htop⟩ := State.pushReg_top ha hok
    exact ⟨_, fun _ => s.regAfterDown_byte _ ha, nofun, State.fetch_of_top hmem htop⟩
  · obtain ⟨-, -, -, htop, -⟩ := State.callReg_top ha hok
    exact ⟨_, nofun, fun _ => rfl, State.fetch_of_top hmem htop⟩

end Sys2Proof
end
